-- ==== Sys2Proof/Word.lean ====
section
/-! DEFINITION. The words of base85_core (00_scope.md R6, R7, R11): unsigned values of a stated width. -/

namespace Sys2Proof

/-- A byte of the byte side (R13). -/
abbrev Byte := BitVec 8

/-- A symbol of the text side, an 8-bit character code (`SYM_W` = 8: R7, R106). -/
abbrev Sym := BitVec 8

/-- The 32-bit tuple (`TUPLE_W` = 32: R6). -/
abbrev Tuple := BitVec 32

/-- A command word (`CMD_W` = 12: R7, R70). -/
abbrev CmdWord := BitVec 12

/-- A result beat (`BEAT_W` = 10: R7, R78). -/
abbrev Beat := BitVec 10

/-- The value of one base-85 digit, 0 to 84: an index of the Alphabet Table (R51). -/
abbrev Digit := Fin 85

end Sys2Proof
end

