-- ==== Sys2Proof/Config.lean ====
section
/-! DEFINITION. What is fixed when the hardware is built (00_scope.md R7, 10_state.md R21): the configuration record `CFG`, and the
one value the spec leaves open. -/

namespace Sys2Proof

/-- The configuration record `CFG` (R21). `CFG.INV` is no field of its own: it is a function of `CFG.ALPHA`
(R103, 92_eei_decisions.md), computed by `Sys2Proof.Machine.buildInv`. That the 85 symbols are distinct is
`Cfg.Valid` (R101). -/
structure Cfg where
  /-- `CFG.ALPHA[0..84]`, index to symbol (R102). -/
  alpha : Vector Sym 85
  /-- `CFG.WRAP`: whether the envelope is used. -/
  wrap : Bool
  /-- `CFG.SPECIAL`: stored, read by nothing (R109). -/
  special : Sym
deriving DecidableEq, Repr

/-- `SPECIAL_DEFAULT` (R109): OPEN in the spec, so a free value (assumption log 3); nothing reads it. -/
opaque specialDefault : Sym

/-- The five error conditions, complete (60_exceptions.md R210, R217). -/
inductive Error where
  /-- Code 1, by `construct` only (R211). -/
  | invalidAlphabet
  /-- Code 2, at `DEC_END` when `CFG.WRAP` = 1 (R212). -/
  | malformedEnvelope
  /-- Code 3, by the scan (R213). -/
  | invalidShorthandPlacement
  /-- Code 4, by the scan (R214). -/
  | invalidSymbol
  /-- Code 5, at `DEC_END` (R215). -/
  | truncatedBlock
deriving DecidableEq, Repr

end Sys2Proof
end

