-- ==== Sys2Proof/Syntax.lean ====
section
/-! DEFINITION. The six commands (30_encoding.md R72), the fields of the one command format (R71), and the two
pseudo-instructions (R80). -/

namespace Sys2Proof

/-- The six commands, one constructor per row of spec/opcode_table.json. The operand of `ENC_BYTE` and `DEC_SYM` is the
8-bit field `arg` (R73). -/
inductive Instr where
  | encBegin
  | encByte (b : Byte)
  | encEnd
  | decBegin
  | decSym (s : Sym)
  | decEnd
deriving DecidableEq, Repr

/-- Format `C`, every field (R71). -/
structure CmdFields where
  /-- Bit 11: 0 = encoder, 1 = decoder. -/
  eng : BitVec 1
  /-- Bit 10: reserved, must be 0. -/
  rsv : BitVec 1
  /-- Bits 9:8: 1 = BEGIN, 2 = DATA, 3 = END, 0 reserved. -/
  fn : BitVec 2
  /-- Bits 7:0: the operand of DATA; 0x00 for BEGIN and END. -/
  arg : BitVec 8
deriving DecidableEq, Repr

/-- The pseudo-instructions (R80): they expand to commands and have no encoding of their own. -/
inductive Pseudo where
  | encode (bytes : List Byte)
  | decode (text : List Sym)
deriving DecidableEq, Repr

/-- The mnemonic of a command, as the opcode map spells it (R72). -/
def Instr.mnemonic : Instr → String
  | .encBegin => "ENC_BEGIN"
  | .encByte _ => "ENC_BYTE"
  | .encEnd => "ENC_END"
  | .decBegin => "DEC_BEGIN"
  | .decSym _ => "DEC_SYM"
  | .decEnd => "DEC_END"

/-- Whether a command belongs to the encoder engine (the three `ENC_*` rows); otherwise it is the decoder's. -/
def Instr.isEncoder : Instr → Bool
  | .encBegin => true
  | .encByte _ => true
  | .encEnd => true
  | .decBegin => false
  | .decSym _ => false
  | .decEnd => false

end Sys2Proof
end

