-- ==== Sys2Proof/WellFormed.lean ====
section
/-! DEFINITION. The checks of well-formedness: of a command's fields (30_encoding.md R71, R74), of an alphabet and a configuration
(40_alphabet_table.md R101). Each check is decidable. -/

namespace Sys2Proof

/-- `rsv` must be 0 (R71). -/
def CmdFields.rsvClear (f : CmdFields) : Bool := f.rsv == 0#1

/-- `fn` = 0 is reserved (R71). -/
def CmdFields.fnAssigned (f : CmdFields) : Bool := f.fn != 0#2

/-- `arg` must be 0x00 unless the function is DATA (R71). -/
def CmdFields.argAllowed (f : CmdFields) : Bool := f.fn == 2#2 || f.arg == 0#8

/-- The fields are those of a command, not of a reserved encoding (R71, R74). -/
def CmdFields.wellFormed (f : CmdFields) : Bool := f.rsvClear && f.fnAssigned && f.argAllowed

/-- The fields of a command (R71, R72). -/
def Instr.fields : Instr → CmdFields
  | .encBegin => ⟨0#1, 0#1, 1#2, 0#8⟩
  | .encByte b => ⟨0#1, 0#1, 2#2, b⟩
  | .encEnd => ⟨0#1, 0#1, 3#2, 0#8⟩
  | .decBegin => ⟨1#1, 0#1, 1#2, 0#8⟩
  | .decSym s => ⟨1#1, 0#1, 2#2, s⟩
  | .decEnd => ⟨1#1, 0#1, 3#2, 0#8⟩

/-- A command is well-formed when its fields are. Every operand value 0 to 255 is legal (R73), and the type of the operand
holds no other, so every term of `Instr` is well-formed (`Sys2Proof.Laws.EncodedFields`). -/
def Instr.wellFormed (i : Instr) : Bool := i.fields.wellFormed

/-- First test of `construct`: exactly 85 entries (R101). -/
def alphabetLengthOk (alphabet : List Sym) : Bool := alphabet.length == 85

/-- Second test of `construct`: no symbol twice (R101). -/
def alphabetDistinct (alphabet : List Sym) : Bool := decide alphabet.Nodup

/-- A configuration that `construct` can have built: its 85 symbols are pairwise distinct (R21, R101). That there are 85 is in
the type. -/
abbrev Cfg.Valid (cfg : Cfg) : Prop := alphabetDistinct cfg.alpha.toList = true

end Sys2Proof
end

