-- ==== Sys2Proof/Machine/Alphabet.lean ====
section
/-! DEFINITION. The Alphabet Table (40_alphabet_table.md): `construct`, the two ROMs and their lookups. -/

namespace Sys2Proof.Machine

/-- `DEFAULT_ALPHABET[i] = 0x21 + i` for i = 0 to 84 (R108). -/
def defaultAlphabet : Vector Sym 85 := Vector.ofFn fun i => BitVec.ofNat 8 (0x21 + i.val)

/-- `construct` (R100, R101): the length test, then the uniqueness test, else the configuration. It is not a command: it runs
when the hardware is built. -/
def construct (alphabet : List Sym := defaultAlphabet.toList) (special : Sym := specialDefault)
    (wrapEnvelope : Bool := false) : Except Error Cfg :=
  if h : alphabet.length = 85 then
    if alphabetDistinct alphabet = true then
      .ok { alpha := ⟨alphabet.toArray, h⟩, wrap := wrapEnvelope, special := special }
    else .error .invalidAlphabet
  else .error .invalidAlphabet

/-- The configuration `construct` builds when no argument is supplied (R100, R108): default alphabet, no envelope. -/
def defaultCfg : Cfg := { alpha := defaultAlphabet, wrap := false, special := specialDefault }

/-- `alpha(d) = RomRead(ALPHA, d)` (R104); an index above 84 cannot be written (R51). -/
def alpha (cfg : Cfg) (d : Digit) : Sym := cfg.alpha[d]

/-- `inv(s)` (R105): the index of `s` in `CFG.ALPHA`, or `none` where `valid` = 0. -/
def inv (cfg : Cfg) (s : Sym) : Option Digit := (List.finRange 85).find? fun d => alpha cfg d == s

/-- An entry of `INV` as the ROM holds it: bit 7 `valid`, bits 6:0 `idx`, 0 where `valid` = 0 (R103). -/
def invEntry (e : Option Digit) : Byte :=
  match e with
  | some d => 1#1 ++ BitVec.ofNat 7 d.val
  | none => 0#8

/-- `build_inv` (R103): the 256-entry inverse ROM, by the spec's two loops. -/
def buildInv (alphabet : List Sym) : Vector Byte 256 :=
  alphabet.zipIdx.foldl (fun rom (c, i) => rom.set c.toNat (1#1 ++ BitVec.ofNat 7 i) c.isLt) (Vector.replicate 256 0#8)

/-- `CFG.INV`, the ROM of an instance (R21, R53). -/
def invRom (cfg : Cfg) : Vector Byte 256 := buildInv cfg.alpha.toList

/-- The unit `inverse_rom` (42_decode.md R171): input `s[7:0]`, outputs `valid` and `idx[6:0]`. -/
def inverseRomUnit (cfg : Cfg) (s : Sym) : BitVec 1 × BitVec 7 :=
  ((invEntry (inv cfg s)).extractLsb' 7 1, (invEntry (inv cfg s)).extractLsb' 0 7)

end Sys2Proof.Machine
end

