-- ==== Sys2Proof/Machine/State.lean ====
section
/-! DEFINITION. The state of base85_core (10_state.md): the two engines, their transient buffers, the two output channels; with
them the build-time parameters and the host's pending input, which the step reads (assumption log 1 and 2). -/

namespace Sys2Proof.Machine

/-- `E_PHASE`, `D_PHASE`: 0 = IDLE, 1 = OPEN (R23, R25, R26). -/
inductive Phase where
  | idle
  | opened
deriving DecidableEq, Repr

/-- The values of `D_ERR` other than 0 (R25): the two errors the scan can find. -/
inductive ScanError where
  /-- 3, `InvalidShorthandPlacement`. -/
  | shorthandPlacement
  /-- 4, `InvalidSymbol`. -/
  | symbol
deriving DecidableEq, Repr

/-- The status of a record (R33): 0 = OK, otherwise an error. -/
inductive Status where
  | ok
  | error (e : Error)
deriving DecidableEq, Repr

/-- A record `(status, payload)` (R33); the payload's elements are symbols on `ENC_RES` and bytes on `DEC_RES`. -/
structure Record where
  status : Status
  payload : List (BitVec 8)
deriving DecidableEq, Repr

/-- The encoder engine (R23). -/
structure Encoder where
  /-- `E_PHASE`, 1 bit. -/
  phase : Phase
  /-- `E_TUPLE`, 32 bits. -/
  tuple : Tuple
  /-- `E_COUNT`, 2 bits, 0 to 3. -/
  count : Fin 4
  /-- `E_BUF`, the call's symbols so far (R30). -/
  buf : List Sym
deriving DecidableEq, Repr

/-- The decoder engine (R25). -/
structure Decoder where
  /-- `D_PHASE`, 1 bit. -/
  phase : Phase
  /-- `D_TUPLE`, 32 bits. -/
  tuple : Tuple
  /-- `D_COUNT`, 3 bits, 0 to 4. -/
  count : Fin 5
  /-- `D_ERR`, 4 bits: `none` is 0. -/
  err : Option ScanError
  /-- `D_NPRE`, 2 bits, 0 to 2. -/
  npre : Fin 3
  /-- `D_ENVBAD`, 1 bit. -/
  envBad : Bool
  /-- `D_HOLD0`, 8 bits, the older held symbol (R29). -/
  hold0 : Sym
  /-- `D_HOLD1`, 8 bits, the newer held symbol. -/
  hold1 : Sym
  /-- `D_NHOLD`, 2 bits, 0 to 2. -/
  nhold : Fin 3
  /-- `D_BUF`, the call's bytes so far (R30). -/
  buf : List Byte
deriving DecidableEq, Repr

/-- What the host presents to the core (70_reset_and_hazards.md R244): a command word, or the reset event. -/
inductive HostEvent where
  | command (w : CmdWord)
  | reset
deriving DecidableEq, Repr

/-- The machine (R20). -/
structure State where
  /-- `CFG`, fixed when the hardware is built; no step changes it (R21, R107). -/
  cfg : Cfg
  /-- `BUF_CAP`: `none` is unbounded (R7, R250); no step changes it. -/
  bufCap : Option Nat
  enc : Encoder
  dec : Decoder
  /-- `ENC_RES`, oldest record first (R33). -/
  encRes : List Record
  /-- `DEC_RES`, oldest record first (R33). -/
  decRes : List Record
  /-- What the host will present next, oldest first: the command stream and the reset events among it (R70, R240). -/
  input : List HostEvent
deriving DecidableEq, Repr

/-- Why the machine stops with a fault: never. The spec has no stuck state (93_implementation_defined.md, end of part 1), and
its errors are records, not stops (60_exceptions.md R219). -/
inductive Fault where
deriving DecidableEq, Repr

/-- Why the machine has no step (60_exceptions.md R222); a refusal changes nothing. -/
inductive Refusal where
  /-- `exec`, for an instruction without a meaning: none is left. Safe. -/
  | notModelled (mnemonic : String)
  /-- `step`, for a word that matches no command (R74). Safe: the spec refuses it. -/
  | reservedEncoding
  /-- Every meaning, for a command whose engine is in the wrong phase (R83). Safe: the spec refuses it. -/
  | protocolViolation
  /-- `ENC_BYTE` and `DEC_SYM`, for a data command that would exceed a finite `BUF_CAP` (R250). Safe: the spec refuses it. -/
  | bufferFull
  /-- `step`, when the host presents nothing: "a core with no command to execute simply has no step" (R226). Safe. -/
  | noCommand
deriving DecidableEq, Repr

/-- The encoder engine after reset and after every `ENC_END` (R34, R35). -/
def Encoder.cleared : Encoder := { phase := .idle, tuple := 0#32, count := 0, buf := [] }

/-- The decoder engine after reset and after every `DEC_END` (R34, R35). -/
def Decoder.cleared : Decoder :=
  { phase := .idle, tuple := 0#32, count := 0, err := none, npre := 0, envBad := false, hold0 := 0#8, hold1 := 0#8,
    nhold := 0, buf := [] }

/-- The instance built with `cfg` and `bufCap`, right after reset (R34, R240): every register 0, buffers and channels empty. -/
def State.resetOf (cfg : Cfg) (bufCap : Option Nat) : State :=
  { cfg := cfg, bufCap := bufCap, enc := .cleared, dec := .cleared, encRes := [], decRes := [], input := [] }

/-- The machine right after reset: the instance with the spec's default parameters (R7), nothing presented yet. -/
def State.reset : State := State.resetOf defaultCfg none

end Sys2Proof.Machine
end

