-- ==== Sys2Proof/Machine/Operands.lean ====
section
/-! DEFINITION. Operands and constants: the fixed characters (00_scope.md R8), the table of powers (R9), the numeric codes of errors
(60_exceptions.md R210), and the registers by the spec's reference numbers (10_state.md R32). -/

namespace Sys2Proof.Machine

/-- `SHORTHAND`, the character `z` (R6, R8). -/
def shorthandSym : Sym := 0x7A#8

/-- `PREFIX`, the characters `<~` (R6, R8). -/
def prefixMarker : List Sym := [0x3C#8, 0x7E#8]

/-- `POSTFIX`, the characters `~>` (R6, R8). -/
def postfixMarker : List Sym := [0x7E#8, 0x3E#8]

/-- The table `POW85`, index 0 the highest power (R9, R54). -/
def pow85Rom : Vector Tuple 5 := #v[52200625#32, 614125#32, 7225#32, 85#32, 1#32]

/-- `RomRead(POW85, i)` (R14, R54). -/
def pow85 (i : Fin 5) : Tuple := pow85Rom[i]

/-- The 4-bit code of an error (R210). -/
def errorCode : Error → BitVec 4
  | .invalidAlphabet => 1#4
  | .malformedEnvelope => 2#4
  | .invalidShorthandPlacement => 3#4
  | .invalidSymbol => 4#4
  | .truncatedBlock => 5#4

/-- The 4-bit code of a status (R33, R210). -/
def statusCode : Status → BitVec 4
  | .ok => 0#4
  | .error e => errorCode e

/-- The error that a scan error is reported as (R25, R170). -/
def scanErrorAsError : ScanError → Error
  | .shorthandPlacement => .invalidShorthandPlacement
  | .symbol => .invalidSymbol

/-- `D_ERR` as its 4-bit register value (R25). -/
def errRegValue : Option ScanError → BitVec 4
  | none => 0#4
  | some e => errorCode (scanErrorAsError e)

/-- A phase as its 1-bit register value (R23, R25). -/
def phaseBit : Phase → BitVec 1
  | .idle => 0#1
  | .opened => 1#1

/-- The registers, by name (R32). -/
inductive Reg where
  | ePhase | eCount | eTuple | eBuf
  | dPhase | dCount | dTuple | dErr | dNpre | dEnvbad | dHold0 | dHold1 | dNhold | dBuf
deriving DecidableEq, Repr

/-- What a register holds: a value of a stated width, or a sequence. -/
inductive RegValue where
  | bits (width : Nat) (value : Nat)
  | sequence (elems : List (BitVec 8))
deriving DecidableEq, Repr

/-- The reference number of a register (R32). -/
def regNumber : Reg → Nat
  | .ePhase => 0 | .eCount => 1 | .eTuple => 2 | .eBuf => 3
  | .dPhase => 8 | .dCount => 9 | .dTuple => 10 | .dErr => 11 | .dNpre => 12 | .dEnvbad => 13
  | .dHold0 => 14 | .dHold1 => 15 | .dNhold => 16 | .dBuf => 17

/-- Whether a register belongs to the encoder engine (R23, R25). -/
def regIsEncoder : Reg → Bool
  | .ePhase | .eCount | .eTuple | .eBuf => true
  | .dPhase | .dCount | .dTuple | .dErr | .dNpre | .dEnvbad | .dHold0 | .dHold1 | .dNhold | .dBuf => false

/-- A register's contents with the width of R32. No command reads a register: this is for statements about the machine. -/
def readReg (s : State) : Reg → RegValue
  | .ePhase => .bits 1 (phaseBit s.enc.phase).toNat
  | .eCount => .bits 2 s.enc.count.val
  | .eTuple => .bits 32 s.enc.tuple.toNat
  | .eBuf => .sequence s.enc.buf
  | .dPhase => .bits 1 (phaseBit s.dec.phase).toNat
  | .dCount => .bits 3 s.dec.count.val
  | .dTuple => .bits 32 s.dec.tuple.toNat
  | .dErr => .bits 4 (errRegValue s.dec.err).toNat
  | .dNpre => .bits 2 s.dec.npre.val
  | .dEnvbad => .bits 1 s.dec.envBad.toNat
  | .dHold0 => .bits 8 s.dec.hold0.toNat
  | .dHold1 => .bits 8 s.dec.hold1.toNat
  | .dNhold => .bits 2 s.dec.nhold.val
  | .dBuf => .sequence s.dec.buf

/-- The observation of a machine: the contents of the two channels, and of nothing else (R31, R246). -/
def observe (s : State) : List Record × List Record := (s.encRes, s.decRes)

end Sys2Proof.Machine
end

