-- ==== Sys2Proof/Machine/Flags.lean ====
section
/-! DEFINITION. The conditions the rules use (10_state.md R28), and the envelope verdict (42_decode.md R167). Only `D_ERR` and
`D_ENVBAD` are stored. -/

namespace Sys2Proof.Machine

/-- `tuple_is_zero`: all 32 bits of a completed tuple are zero (R28, R126). -/
def tupleIsZero (t : Tuple) : Bool := t == 0#32

/-- `is_shorthand(s)` (R28, R150). -/
def isShorthand (s : Sym) : Bool := s == shorthandSym

/-- `inv(s).valid` (R28, R105). -/
def symbolValid (cfg : Cfg) (s : Sym) : Bool := (inv cfg s).isSome

/-- `D_ERR != 0`: an earlier symbol of this call already failed (R28, R162). -/
def scanFailed (d : Decoder) : Bool := d.err.isSome

/-- `D_ENVBAD` after a prefix position that should hold `want` and holds `got`: sticky within a call (R28, R166). -/
def envBadAfter (d : Decoder) (got want : Sym) : Bool := d.envBad || got != want

/-- `env_ok` (R167). -/
def envOk (cfg : Cfg) (d : Decoder) : Bool :=
  !cfg.wrap || (d.npre == 2 && !d.envBad && d.nhold == 2 && d.hold0 == 0x7E#8 && d.hold1 == 0x3E#8)

end Sys2Proof.Machine
end

