-- ==== Sys2Proof/Machine/Ops.lean ====
section
/-! DEFINITION. The sub-blocks as pure functions (41_encode.md part 1, 42_decode.md part 1) and the shared operations on the state:
admission, capacity, publishing a record, and what an error does (60_exceptions.md R219). -/

namespace Sys2Proof.Machine

/-! ### block_packer -/

/-- `pack_step(t, c, b)` (R120). -/
def packStep (t : Tuple) (c : Fin 4) (b : Byte) : Tuple := t ||| (b.setWidth 32 <<< (24 - 8 * c.val))

/-- `sum over i < n of bs[i] * 2^(24 - 8*i)`, from position `i` on (R121). -/
def packSum : List Byte → Nat → Nat
  | [], _ => 0
  | b :: bs, i => b.toNat * 2 ^ (24 - 8 * i) + packSum bs (i + 1)

/-- `pack(bs)` for at most four bytes (R121). -/
def pack (bs : List Byte) : Tuple := BitVec.ofNat 32 (packSum bs 0)

/-! ### base85_encoder -/

/-- `divmod85(x) = (x div 85, x mod 85)` (R122). -/
def divmod85 (x : Tuple) : Tuple × Digit :=
  (BitVec.ofNat 32 (x.toNat / 85), ⟨x.toNat % 85, Nat.mod_lt _ (by decide)⟩)

/-- `digits85(t)`: five digits, most significant first, by repeated division collected in reverse (R123). -/
def digits85 (t : Tuple) : List Digit :=
  let (x3, d4) := divmod85 t
  let (x2, d3) := divmod85 x3
  let (x1, d2) := divmod85 x2
  let (x0, d1) := divmod85 x1
  let (_, d0) := divmod85 x0
  [d0, d1, d2, d3, d4]

/-- `syms5(t)` (R125). -/
def syms5 (cfg : Cfg) (t : Tuple) : List Sym := (digits85 t).map (alpha cfg)

/-- The outputs of the unit `base85_encoder` (R134). -/
structure EncoderUnitOut where
  d : List Digit
  s : List Sym
  isZero : Bool
deriving DecidableEq, Repr

/-- The unit `base85_encoder` (R134): input the tuple, outputs digits, symbols and the zero test. -/
def base85EncoderUnit (cfg : Cfg) (t : Tuple) : EncoderUnitOut :=
  { d := digits85 t, s := syms5 cfg t, isZero := tupleIsZero t }

/-- `group_syms(t)` (R126): the shorthand for the zero tuple, else five symbols. -/
def groupSyms (cfg : Cfg) (t : Tuple) : List Sym := if tupleIsZero t then [shorthandSym] else syms5 cfg t

/-- `tail_syms(n, t)` (R128): the first `n + 1` symbols, never the shorthand for a zero tuple. -/
def tailSyms (cfg : Cfg) (n : Nat) (t : Tuple) : List Sym := (syms5 cfg t).take (n + 1)

/-! ### base85_decoder -/

/-- The three verdicts on a content symbol (R150). -/
inductive Verdict where
  | shorthand
  | digit (i : Digit)
  | invalid
deriving DecidableEq, Repr

/-- `classify(s)` (R150): the shorthand test first, then the inverse ROM. -/
def classify (cfg : Cfg) (s : Sym) : Verdict :=
  if isShorthand s then .shorthand
  else
    match inv cfg s with
    | some i => .digit i
    | none => .invalid

/-- `acc_step(t, c, i) = trunc32(t + i * POW85[c])` (R151, R158). -/
def accStep (t : Tuple) (c : Fin 5) (i : Digit) : Tuple := BitVec.ofNat 32 (t.toNat + i.val * (pow85 c).toNat)

/-- The Horner recurrence an implementation may use (R152): `h <- trunc32(h * 85 + i)`. -/
def hornerStep (h : Tuple) (i : Digit) : Tuple := BitVec.ofNat 32 (h.toNat * 85 + i.val)

/-- The tuple after a sequence of digits of one group, from count `c` and tuple `t` on (R151, R172). -/
def accDigits : List Digit → Fin 5 → Tuple → Tuple
  | [], _, t => t
  | i :: is, c, t => accDigits is (c + 1) (accStep t c i)

/-- The Horner value of a sequence of digits (R152). -/
def hornerDigits (is : List Digit) : Tuple := is.foldl hornerStep 0#32

/-! ### block_unpacker -/

/-- `unpack(t)`: four bytes, most significant first (R153). -/
def unpack (t : Tuple) : List Byte := [t.extractLsb' 24 8, t.extractLsb' 16 8, t.extractLsb' 8 8, t.extractLsb' 0 8]

/-- The unit `block_unpacker` (R171): the first `k` bytes of the tuple. -/
def blockUnpacker (t : Tuple) (k : Nat) : List Byte := (unpack t).take k

/-- `k = count - 1`, the bytes that a tail of `count` symbols stands for (R155). -/
def tailIndex (count : Fin 5) : Fin 5 := ⟨count.val - 1, by omega⟩

/-- `tail_bytes(count, t)` (R155, R156): the bias `POW85[k]` is added modulo 2^32, and `k` bytes are kept. Applied to counts
2 to 4 only. -/
def tailBytes (count : Fin 5) (t : Tuple) : List Byte :=
  blockUnpacker (BitVec.ofNat 32 (t.toNat + (pow85 (tailIndex count)).toNat)) (tailIndex count).val

/-! ### Operations on the state -/

/-- The outcome of a command. -/
abbrev Result := Host.Outcome State Fault Refusal

/-- `s` with another encoder engine. -/
def State.setEnc (s : State) (e : Encoder) : State := { s with enc := e }

/-- `s` with another decoder engine. -/
def State.setDec (s : State) (d : Decoder) : State := { s with dec := d }

/-- `emit(ENC_RES, r)` (R14, R33). -/
def State.emitEnc (s : State) (r : Record) : State := { s with encRes := s.encRes ++ [r] }

/-- `emit(DEC_RES, r)` (R14, R33). -/
def State.emitDec (s : State) (r : Record) : State := { s with decRes := s.decRes ++ [r] }

/-- Admission of an encoder command (R83): refused unless `E_PHASE` is `want`. -/
def whenEncPhase (want : Phase) (s : State) (r : Result) : Result :=
  if s.enc.phase = want then r else .refused .protocolViolation

/-- Admission of a decoder command (R83): refused unless `D_PHASE` is `want`. -/
def whenDecPhase (want : Phase) (s : State) (r : Result) : Result :=
  if s.dec.phase = want then r else .refused .protocolViolation

/-- Whether a data command that takes a buffer from `old` to `new` stays within `BUF_CAP` (R250): always when unbounded or when
it appends nothing. -/
def roomFor (bufCap : Option Nat) (old new : List (BitVec 8)) : Bool :=
  match bufCap with
  | none => true
  | some cap => decide (new.length ≤ old.length) || decide (new.length ≤ cap)

/-- A data command's new encoder engine, refused if `E_BUF` would exceed `BUF_CAP` (R250). -/
def storeEnc (s : State) (e : Encoder) : Result :=
  if roomFor s.bufCap s.enc.buf e.buf then .next (s.setEnc e) else .refused .bufferFull

/-- A data command's new decoder engine, refused if `D_BUF` would exceed `BUF_CAP` (R250). -/
def storeDec (s : State) (d : Decoder) : Result :=
  if roomFor s.bufCap s.dec.buf d.buf then .next (s.setDec d) else .refused .bufferFull

/-- The record of a successful call (R33). -/
def okRecord (payload : List (BitVec 8)) : Record := { status := .ok, payload := payload }

/-- The record of a failed call: the code and an empty payload (R33, R220). -/
def errorRecord (e : Error) : Record := { status := .error e, payload := [] }

/-- An error is found by the scan (R219): `D_ERR` is written and nothing else changes. -/
def latchScanError (d : Decoder) (e : ScanError) : Decoder := { d with err := some e }

/-- END of a decode call: the record is published and every decoder register returns to its reset value (R170, R221). -/
def closeDecode (r : Record) (s : State) : State := (s.emitDec r).setDec .cleared

/-- An error is reported (R219), this hardware's whole error entry: one record `(code, [])`, `D_BUF` discarded, the decoder
back to 0. There is no vector, no saved state and no return from it (R221). -/
def takeError (e : Error) (s : State) : State := closeDecode (errorRecord e) s

/-- END of an encode call: the record is published and every encoder register returns to its reset value (R131). -/
def closeEncode (r : Record) (s : State) : State := (s.emitEnc r).setEnc .cleared

end Sys2Proof.Machine
end

