-- ==== Sys2Proof/Machine/Decoder.lean ====
section
/-! DEFINITION. The decoder commands: `DEC_BEGIN`, `DEC_SYM`, `DEC_END` (42_decode.md parts 2 to 4). -/

namespace Sys2Proof.Machine

/-- The decoder engine at the start of a call (R163). -/
def decOpen : Decoder := { Decoder.cleared with phase := .opened }

/-- The decoder engine after a content symbol that is the digit `i` (R160). -/
def takeDigit (d : Decoder) (i : Digit) : Decoder :=
  let t := accStep d.tuple d.count i
  if d.count = 4 then { d with buf := d.buf ++ unpack t, tuple := 0#32, count := 0 }
  else { d with tuple := t, count := d.count + 1 }

/-- The decoder engine after the shorthand symbol (R160, R161): legal at a group boundary only. -/
def takeShorthand (d : Decoder) : Decoder :=
  if d.count = 0 then { d with buf := d.buf ++ [0#8, 0#8, 0#8, 0#8] } else latchScanError d .shorthandPlacement

/-- `scan(c)` (R160): what the decoder does with one content symbol; nothing once `D_ERR` is set (R162). -/
def scan (cfg : Cfg) (d : Decoder) (c : Sym) : Decoder :=
  if scanFailed d then d
  else
    match classify cfg c with
    | .shorthand => takeShorthand d
    | .invalid => latchScanError d .symbol
    | .digit i => takeDigit d i

/-- The symbol `s` of an enveloped text (R165, R166): the two prefix positions, then the delay line, then the symbol the line
gives up is scanned. -/
def takeEnveloped (cfg : Cfg) (d : Decoder) (s : Sym) : Decoder :=
  if d.npre = 0 then { d with envBad := envBadAfter d s 0x3C#8, npre := 1 }
  else if d.npre = 1 then { d with envBad := envBadAfter d s 0x7E#8, npre := 2 }
  else if d.nhold = 0 then { d with hold0 := s, nhold := 1 }
  else if d.nhold = 1 then { d with hold1 := s, nhold := 2 }
  else scan cfg { d with hold0 := d.hold1, hold1 := s } d.hold0

/-- The decoder engine after the symbol `s` of the text (R166). -/
def decTake (cfg : Cfg) (d : Decoder) (s : Sym) : Decoder := if cfg.wrap then takeEnveloped cfg d s else scan cfg d s

/-- What a decode call comes to (R169, R170): envelope first, then the first scan error, then the tail. -/
def decVerdict (cfg : Cfg) (d : Decoder) : Except Error (List Byte) :=
  if envOk cfg d = false then .error .malformedEnvelope
  else
    match d.err with
    | some e => .error (scanErrorAsError e)
    | none =>
      if d.count = 0 then .ok d.buf
      else if d.count = 1 then .error .truncatedBlock
      else .ok (d.buf ++ tailBytes d.count d.tuple)

/-- The state after `DEC_END` (R170): the error is taken, or the bytes are published. -/
def decFinish (s : State) : State :=
  match decVerdict s.cfg s.dec with
  | .error e => takeError e s
  | .ok bytes => closeDecode (okRecord bytes) s

/-- `DEC_BEGIN` (R163). -/
def execDecBegin (s : State) : Result := whenDecPhase .idle s (.next (s.setDec decOpen))

/-- `DEC_SYM sym` (R166). -/
def execDecSym (sym : Sym) (s : State) : Result := whenDecPhase .opened s (storeDec s (decTake s.cfg s.dec sym))

/-- `DEC_END` (R170). -/
def execDecEnd (s : State) : Result := whenDecPhase .opened s (.next (decFinish s))

end Sys2Proof.Machine
end

