-- ==== Sys2Proof/Machine/Encoder.lean ====
section
/-! DEFINITION. The encoder commands: `ENC_BEGIN`, `ENC_BYTE`, `ENC_END` (41_encode.md part 2). -/

namespace Sys2Proof.Machine

/-- The encoder engine at the start of a call (R129): the prefix marker is in the buffer when the envelope is on. -/
def encOpen (cfg : Cfg) : Encoder :=
  { phase := .opened, tuple := 0#32, count := 0, buf := if cfg.wrap then prefixMarker else [] }

/-- The encoder engine after the input byte `b` (R130). -/
def encTake (cfg : Cfg) (e : Encoder) (b : Byte) : Encoder :=
  let t := packStep e.tuple e.count b
  if e.count = 3 then { e with buf := e.buf ++ groupSyms cfg t, tuple := 0#32, count := 0 }
  else { e with tuple := t, count := e.count + 1 }

/-- The symbols of the record of an encode call (R131): the buffer, the tail, the postfix marker. -/
def encOutput (cfg : Cfg) (e : Encoder) : List Sym :=
  e.buf ++ (if e.count = 0 then [] else tailSyms cfg e.count.val e.tuple) ++ (if cfg.wrap then postfixMarker else [])

/-- `ENC_BEGIN` (R129). -/
def execEncBegin (s : State) : Result := whenEncPhase .idle s (.next (s.setEnc (encOpen s.cfg)))

/-- `ENC_BYTE b` (R130). -/
def execEncByte (b : Byte) (s : State) : Result := whenEncPhase .opened s (storeEnc s (encTake s.cfg s.enc b))

/-- `ENC_END` (R131). -/
def execEncEnd (s : State) : Result := whenEncPhase .opened s (.next (closeEncode (okRecord (encOutput s.cfg s.enc)) s))

end Sys2Proof.Machine
end

