-- ==== Sys2Proof/Decode.lean ====
section
/-! DEFINITION. The command decoder, total on 12-bit words (30_encoding.md R81), and after it the encoder; the opcode map as a table
(R72); the decoder as the host's opcode-table check calls it. -/

namespace Sys2Proof

/-- Why a word is no command: the two classes of reserved encodings (R74). -/
inductive Reserved where
  /-- (a) `op` names no command: `fn` = 0 or `rsv` = 1. -/
  | reservedOp
  /-- (b) BEGIN or END with `arg` not 0x00. -/
  | nonzeroArg
deriving DecidableEq, Repr

/-- `op` = `cmd[11:8]` (R71). -/
def opOf (w : CmdWord) : BitVec 4 := w.extractLsb' 8 4

/-- `arg` = `cmd[7:0]` (R71, R73). -/
def argOf (w : CmdWord) : BitVec 8 := w.extractLsb' 0 8

/-- The four fields of a word (R71). -/
def fieldsOf (w : CmdWord) : CmdFields :=
  ⟨w.extractLsb' 11 1, w.extractLsb' 10 1, w.extractLsb' 8 2, w.extractLsb' 0 8⟩

/-- A command without operand: `arg` must be 0x00 (R71, R74). -/
def bareCommand (i : Instr) (arg : BitVec 8) : Except Reserved Instr :=
  if arg = 0#8 then .ok i else .error .nonzeroArg

/-- The command a word is, or why it is none (R72, R74, R81). -/
def decode (w : CmdWord) : Except Reserved Instr :=
  if opOf w = 0x1#4 then bareCommand .encBegin (argOf w)
  else if opOf w = 0x2#4 then .ok (.encByte (argOf w))
  else if opOf w = 0x3#4 then bareCommand .encEnd (argOf w)
  else if opOf w = 0x9#4 then bareCommand .decBegin (argOf w)
  else if opOf w = 0xA#4 then .ok (.decSym (argOf w))
  else if opOf w = 0xB#4 then bareCommand .decEnd (argOf w)
  else .error .reservedOp

/-- `decode_cmd : BitVec 12 -> Option Command` of R81. -/
def decodeCmd (w : CmdWord) : Option Instr := (decode w).toOption

/-- The word made of four fields, `{eng, rsv, fn, arg}` (R71). -/
def wordOfFields (f : CmdFields) : CmdWord := f.eng ++ f.rsv ++ f.fn ++ f.arg

/-- The word of a command (R72). -/
def encode (i : Instr) : CmdWord := wordOfFields i.fields

/-- One row of the opcode map (R72). -/
structure OpcodeRow where
  mnemonic : String
  pattern : CmdWord
  mask : CmdWord
deriving DecidableEq, Repr

/-- The opcode map, row by row (R72). -/
def opcodeTable : List OpcodeRow :=
  [⟨"ENC_BEGIN", 0x100#12, 0xFFF#12⟩, ⟨"ENC_BYTE", 0x200#12, 0xF00#12⟩, ⟨"ENC_END", 0x300#12, 0xFFF#12⟩,
   ⟨"DEC_BEGIN", 0x900#12, 0xFFF#12⟩, ⟨"DEC_SYM", 0xA00#12, 0xF00#12⟩, ⟨"DEC_END", 0xB00#12, 0xFFF#12⟩]

/-- `w` is the command of a row exactly when `(w & mask) = match` (R72). -/
def matchesRow (w : CmdWord) (r : OpcodeRow) : Bool := w &&& r.mask == r.pattern

/-- The 12-bit word that `nbits` bits of a table number spell, if the number fits the command port (R70). -/
def tableWord (nbits w : Nat) : Option CmdWord :=
  if w % 2 ^ nbits < 4096 then some (BitVec.ofNat 12 (w % 2 ^ nbits)) else none

/-- The command the decoder reads from an opcode-table number (the host's check). -/
def decodeTableWord (nbits w : Nat) : Option Instr :=
  match tableWord nbits w with
  | some c => decodeCmd c
  | none => none

end Sys2Proof
end

