-- ==== Sys2Proof/Machine/Port.lean ====
section
/-! DEFINITION. The command port and the reset input (30_encoding.md R70, 70_reset_and_hazards.md R240, R244): taking the host's next
event, and what the reset event does. -/

namespace Sys2Proof.Machine

/-- The host's next event and the machine without it, or `none` when the host presents nothing (R70). -/
def nextEvent (s : State) : Option (HostEvent × State) :=
  match s.input with
  | [] => none
  | e :: rest => some (e, { s with input := rest })

/-- The reset event (R240, R242): every register, buffer and channel to its reset value; `CFG` and `BUF_CAP` stay, and so does
what the host presents afterwards. -/
def applyReset (s : State) : State := { State.resetOf s.cfg s.bufCap with input := s.input }

/-- `s` with a command word presented before everything else. -/
def presentWord (s : State) (w : CmdWord) : State := { s with input := .command w :: s.input }

/-- `s` with an opcode-table number presented, if it fits the 12-bit port; otherwise nothing is presented. -/
def presentTableWord (s : State) (nbits w : Nat) : State :=
  match tableWord nbits w with
  | some c => presentWord s c
  | none => { s with input := [] }

end Sys2Proof.Machine
end

