-- ==== Sys2Proof/Machine/Step.lean ====
section
/-! DEFINITION. One step: the host's next event is taken and acted on, whole or not at all (20_memory.md R62). -/

namespace Sys2Proof.Machine

/-- One step. No event: no step (R226). Reset: R240. A command word: refused if it is no command (R74), else executed. -/
def step (s : State) : Host.Outcome State Fault Refusal :=
  match nextEvent s with
  | none => .refused .noCommand
  | some (.reset, s') => .next (applyReset s')
  | some (.command w, s') =>
    match decode w with
    | .error _ => .refused .reservedEncoding
    | .ok i => exec i s'

/-- The word presented where `step` takes its next command (the host's check; assumption log 2). -/
def State.withFetchWord (s : State) (nbits w : Nat) : State := presentTableWord s nbits w

end Sys2Proof.Machine
end

