-- ==== Sys2Proof/Machine/Calls.lean ====
section
/-! DEFINITION. The call level (43_call_level.md): the closed forms `encode` and `decode`, and the command sequence of a call. -/

namespace Sys2Proof.Machine

/-- `cmds_enc(B)` (R193). -/
def cmdsEnc (bytes : List Byte) : List Instr := [.encBegin] ++ bytes.map .encByte ++ [.encEnd]

/-- `cmds_dec(T)` (R193). -/
def cmdsDec (text : List Sym) : List Instr := [.decBegin] ++ text.map .decSym ++ [.decEnd]

/-- The expansion of a pseudo-instruction (30_encoding.md R80). -/
def expandPseudo : Pseudo → List Instr
  | .encode bytes => cmdsEnc bytes
  | .decode text => cmdsDec text

/-- `G_j = B[4j .. 4j+4]`, the `j`-th full group (R190). -/
def fullGroup (bytes : List Byte) (j : Nat) : List Byte := (bytes.drop (4 * j)).take 4

/-- `R = B[4q .. N]`, the bytes after the last full group (R190). -/
def partialGroup (bytes : List Byte) : List Byte := bytes.drop (4 * (bytes.length / 4))

/-- The content of an encoded text, markers excluded (R190). -/
def encodeContent (cfg : Cfg) (bytes : List Byte) : List Sym :=
  (List.range (bytes.length / 4)).flatMap (fun j => groupSyms cfg (pack (fullGroup bytes j)))
    ++ (if bytes.length % 4 = 0 then [] else tailSyms cfg (bytes.length % 4) (pack (partialGroup bytes)))

/-- `encode(CFG, B)` (R190). -/
def encodeCall (cfg : Cfg) (bytes : List Byte) : List Sym :=
  (if cfg.wrap then prefixMarker else []) ++ encodeContent cfg bytes ++ (if cfg.wrap then postfixMarker else [])

/-- The end of the content in `decode(CFG, T)` (R191). -/
def decodeTail (t : Tuple) (count : Fin 5) (out : List Byte) : Record :=
  if count = 0 then okRecord out
  else if count = 1 then errorRecord .truncatedBlock
  else okRecord (out ++ tailBytes count t)

/-- The loop of `decode(CFG, T)` over the content (R191). -/
def decodeContent (cfg : Cfg) : List Sym → Tuple → Fin 5 → List Byte → Record
  | [], t, count, out => decodeTail t count out
  | c :: cs, t, count, out =>
    match classify cfg c with
    | .shorthand =>
      if count = 0 then decodeContent cfg cs t count (out ++ [0#8, 0#8, 0#8, 0#8])
      else errorRecord .invalidShorthandPlacement
    | .invalid => errorRecord .invalidSymbol
    | .digit i =>
      if count = 4 then decodeContent cfg cs 0#32 0 (out ++ unpack (accStep t count i))
      else decodeContent cfg cs (accStep t count i) (count + 1) out

/-- The envelope test of `decode(CFG, T)` (R164, R168, R191): at least four symbols, `<~` first, `~>` last. -/
def envelopeGood (text : List Sym) : Bool :=
  decide (4 ≤ text.length) && text.take 2 == prefixMarker && text.drop (text.length - 2) == postfixMarker

/-- The content between the markers, `T[2 .. L-2]` (R164, R191). -/
def stripEnvelope (text : List Sym) : List Sym := (text.drop 2).take (text.length - 4)

/-- `decode(CFG, T)` (R191). -/
def decodeCall (cfg : Cfg) (text : List Sym) : Record :=
  if cfg.wrap then
    if envelopeGood text then decodeContent cfg (stripEnvelope text) 0#32 0 []
    else errorRecord .malformedEnvelope
  else decodeContent cfg text 0#32 0 []

end Sys2Proof.Machine
end

