-- ==== Sys2Proof/Machine/Assembler.lean ====
section
/-! DEFINITION. The assembler text of command streams (30_encoding.md R79, R80): one command or pseudo-instruction per line, read as a
list of characters. -/

namespace Sys2Proof.Machine

/-- Why a line is not assembled. -/
inductive AsmError where
  | unknownMnemonic
  | badOperand
  | trailingText
deriving DecidableEq, Repr

/-- The value of a hexadecimal digit. -/
def hexDigit (c : Char) : Option Nat :=
  if '0' ≤ c ∧ c ≤ '9' then some (c.toNat - '0'.toNat)
  else if 'a' ≤ c ∧ c ≤ 'f' then some (c.toNat - 'a'.toNat + 10)
  else if 'A' ≤ c ∧ c ≤ 'F' then some (c.toNat - 'A'.toNat + 10)
  else none

/-- The value of a decimal digit. -/
def decDigit (c : Char) : Option Nat := if '0' ≤ c ∧ c ≤ '9' then some (c.toNat - '0'.toNat) else none

/-- The number a list of digits spells after `acc`, or `none` where a character is no digit. -/
def digitsValue (base : Nat) (digit : Char → Option Nat) : List Char → Nat → Option Nat
  | [], acc => some acc
  | c :: cs, acc =>
    match digit c with
    | some d => digitsValue base digit cs (acc * base + d)
    | none => none

/-- The value of a nonempty digit string that is at most 255 (R79). -/
def imm8Value (base : Nat) (digit : Char → Option Nat) (cs : List Char) : Option Byte :=
  match cs with
  | [] => none
  | _ :: _ =>
    match digitsValue base digit cs 0 with
    | some v => if v < 256 then some (BitVec.ofNat 8 v) else none
    | none => none

/-- A number token: `0x` and hexadecimal digits, or decimal digits (R79). -/
def numberToken (cs : List Char) : Option Byte :=
  match cs with
  | '0' :: 'x' :: ds => imm8Value 16 hexDigit ds
  | ds => imm8Value 10 decDigit ds

/-- White space between the parts of a line. -/
def isBlank (c : Char) : Bool := c == ' ' || c == '\t'

/-- The characters of a word: neither white space nor the start of a comment nor the comma of an operand list. A quote is a word
character, so a mnemonic and its operand need white space between them (DESIGN CHOICE, assumption log 10). -/
def isWordChar (c : Char) : Bool := !isBlank c && c != ';' && c != ','

/-- `<imm8>` at the start of `cs` (R79): its value and what follows. A character literal is one printable ASCII character, the
space and `;` among them, and denotes its code. -/
def imm8Token (cs : List Char) : Option (Byte × List Char) :=
  match cs with
  | '\'' :: c :: '\'' :: rest =>
    if ' ' ≤ c ∧ c ≤ '~' then some (BitVec.ofNat 8 c.toNat, rest) else none
  | _ =>
    match numberToken (cs.takeWhile isWordChar) with
    | some b => some (b, cs.dropWhile isWordChar)
    | none => none

/-- Whether nothing but white space and a comment is left of a line (R79). -/
def lineEnds (cs : List Char) : Bool :=
  match cs.dropWhile isBlank with
  | [] => true
  | c :: _ => c == ';'

/-- A command without operand. -/
def asmBare (i : Instr) (rest : List Char) : Except AsmError (Option Instr) :=
  if lineEnds rest then .ok (some i) else .error .trailingText

/-- A command with an `<imm8>`. -/
def asmImm (mk : Byte → Instr) (rest : List Char) : Except AsmError (Option Instr) :=
  match imm8Token (rest.dropWhile isBlank) with
  | some (b, rest') => if lineEnds rest' then .ok (some (mk b)) else .error .trailingText
  | none => .error .badOperand

/-- `<line>` (R79): the command on it, or `none` for a blank or comment-only line. Mnemonics are upper case. White
space is required between a mnemonic and its operand: `ENC_BYTE'9'` is an unknown mnemonic (DESIGN CHOICE, assumption log 10). -/
def assembleLine (line : List Char) : Except AsmError (Option Instr) :=
  let cs := line.dropWhile isBlank
  if lineEnds cs then .ok none
  else
    let word := cs.takeWhile isWordChar
    let rest := cs.dropWhile isWordChar
    if word = "ENC_BEGIN".toList then asmBare .encBegin rest
    else if word = "ENC_BYTE".toList then asmImm .encByte rest
    else if word = "ENC_END".toList then asmBare .encEnd rest
    else if word = "DEC_BEGIN".toList then asmBare .decBegin rest
    else if word = "DEC_SYM".toList then asmImm .decSym rest
    else if word = "DEC_END".toList then asmBare .decEnd rest
    else .error .unknownMnemonic

/-- The symbols of a text in quotes: the ASCII codes of its characters (R11, R80). -/
def asciiCodes (cs : List Char) : List Sym := cs.map fun c => BitVec.ofNat 8 c.toNat

/-- The double quote around the text of a pseudo-instruction. -/
def doubleQuote : Char := Char.ofNat 0x22

/-- At least one operand, with a comma between two of them (R80): their values and what follows. The first argument bounds the
number of operands. -/
def operandList : Nat → List Char → Option (List Byte × List Char)
  | 0, _ => none
  | bound + 1, cs =>
    match imm8Token (cs.dropWhile isBlank) with
    | none => none
    | some (b, rest) =>
      match rest.dropWhile isBlank with
      | ',' :: rest' =>
        match operandList bound rest' with
        | none => none
        | some (bs, rest'') => some (b :: bs, rest'')
      | rest' => some ([b], rest')

/-- A text in quotes, of printable ASCII characters (R80); `cs` is what follows the opening quote. -/
def quotedText (cs : List Char) : Option (List Byte × List Char) :=
  let text := cs.takeWhile (· != doubleQuote)
  match cs.dropWhile (· != doubleQuote) with
  | [] => none
  | _ :: rest => if text.all fun c => decide (' ' ≤ c ∧ c ≤ '~') then some (asciiCodes text, rest) else none

/-- The operands of a pseudo-instruction (R80): none, a list of them, or a text in quotes. -/
def pseudoOperands (cs : List Char) : Option (List Byte × List Char) :=
  match cs.dropWhile isBlank with
  | [] => some ([], [])
  | c :: rest =>
    if c = ';' then some ([], c :: rest)
    else if c = doubleQuote then quotedText rest
    else operandList (rest.length + 1) (c :: rest)

/-- A pseudo-instruction with its operands: its expansion (R80). -/
def asmPseudo (mk : List Byte → Pseudo) (rest : List Char) : Except AsmError (List Instr) :=
  match pseudoOperands rest with
  | some (bs, rest') => if lineEnds rest' then .ok (expandPseudo (mk bs)) else .error .trailingText
  | none => .error .badOperand

/-- The commands of a line: of a pseudo-instruction (R80), or the one command, or none (R79). Between ENCODE or DECODE and its
operands white space is required too: `ENCODE"text"` is an unknown mnemonic (DESIGN CHOICE, assumption log 10). -/
def assembleAnyLine (line : List Char) : Except AsmError (List Instr) :=
  let cs := line.dropWhile isBlank
  let word := cs.takeWhile isWordChar
  let rest := cs.dropWhile isWordChar
  if word = "ENCODE".toList then asmPseudo .encode rest
  else if word = "DECODE".toList then asmPseudo .decode rest
  else
    match assembleLine line with
    | .ok (some i) => .ok [i]
    | .ok none => .ok []
    | .error e => .error e

/-- The commands of a text, line by line (R79, R80). -/
def assemble : List (List Char) → Except AsmError (List Instr)
  | [] => .ok []
  | l :: ls =>
    match assembleAnyLine l, assemble ls with
    | .error e, _ => .error e
    | .ok _, .error e => .error e
    | .ok is, .ok js => .ok (is ++ js)

end Sys2Proof.Machine
end

