-- ==== Sys2Proof/Machine/Beats.lean ====
section
/-! DEFINITION. Result records as 10-bit beats (30_encoding.md R77, R78). The record is the architectural object; the beats are its
spelling on the wires of a channel. -/

namespace Sys2Proof.Machine

/-- The `kind` of a beat, bits 9:8; 3 is never produced (R78). -/
inductive BeatKind where
  | data
  | endOk
  | endErr
deriving DecidableEq, Repr

/-- `kind` as two bits (R78). -/
def beatKindBits : BeatKind → BitVec 2
  | .data => 0#2
  | .endOk => 1#2
  | .endErr => 2#2

/-- The beat `{kind, data}` (R78). -/
def beat (k : BeatKind) (data : BitVec 8) : Beat := beatKindBits k ++ data

/-- The beats of a record (R77). -/
def recordBeats (r : Record) : List Beat :=
  match r.status with
  | .ok => r.payload.map (beat .data) ++ [beat .endOk 0#8]
  | .error e => [beat .endErr ((errorCode e).setWidth 8)]

/-- The beats of a channel: those of each record, contiguous, in record order (R77). -/
def channelBeats (rs : List Record) : List Beat := rs.flatMap recordBeats

end Sys2Proof.Machine
end

