-- ==== Sys2Proof/Machine/Run.lean ====
section
/-! DEFINITION. Runs (70_reset_and_hazards.md R245, R246): the host presents events one after another. -/

namespace Sys2Proof.Machine

/-- One step with `e` presented before everything else. -/
def offer (e : HostEvent) (s : State) : Result := step { s with input := e :: s.input }

/-- The events of a list, one step each, up to the first refusal. -/
def feed : List HostEvent → State → Result
  | [], s => .next s
  | e :: es, s =>
    match offer e s with
    | .next t => feed es t
    | .fault r => .fault r
    | .refused r => .refused r

/-- A command list as the host's events: each command's word (R72, R193). -/
def asEvents (is : List Instr) : List HostEvent := is.map fun i => .command (encode i)

/-- The commands of a list, executed in order (R64). -/
def runCommands (is : List Instr) (s : State) : Result := feed (asEvents is) s

/-- The machine after an event that may be refused: a refusal leaves the machine as it was, able to take the next command (R222,
93_implementation_defined.md). -/
def afterEvent (s : State) (e : HostEvent) : State :=
  match offer e s with
  | .next t => t
  | .fault _ => s
  | .refused _ => s

/-- The machine trace of a list of events, refused ones passed over (95_test_vectors.md P4). -/
def machineTrace (s : State) (es : List HostEvent) : State := es.foldl afterEvent s

/-- How a run ends (R246). -/
inductive RunEnd where
  /-- No command refused and both engines idle: the observation is the two channels' contents. -/
  | complete (observed : List Record × List Record)
  /-- A call is still open. -/
  | incomplete
  /-- A command was refused: nothing is said from there on. -/
  | refused (r : Refusal)
deriving DecidableEq, Repr

/-- The end of the run of `es` from `s` (R246). -/
def runEndFrom (s : State) (es : List HostEvent) : RunEnd :=
  match feed es s with
  | .next t => if t.enc.phase = .idle ∧ t.dec.phase = .idle then .complete (observe t) else .incomplete
  | .refused r => .refused r
  | .fault r => nomatch r

/-- A run of the instance built with `cfg` and `bufCap`, from its reset state (R246). -/
def runEnd (cfg : Cfg) (bufCap : Option Nat) (es : List HostEvent) : RunEnd := runEndFrom (State.resetOf cfg bufCap) es

end Sys2Proof.Machine
end

