-- ==== Sys2Proof/Safety.lean ====
section
/-! DEFINITION. What claims about runs are stated in: admission by phase (30_encoding.md R83), the legal order of commands
(70_reset_and_hazards.md R245), and the invariant of the machine (10_state.md R35, 41_encode.md R133, 42_decode.md R172). -/

namespace Sys2Proof.Machine

/-- The phase of its engine in which a command is accepted (R83). -/
def admittedPhase : Instr → Phase
  | .encBegin => .idle
  | .encByte _ => .opened
  | .encEnd => .opened
  | .decBegin => .idle
  | .decSym _ => .opened
  | .decEnd => .opened

/-- The phase of a command's own engine. -/
def ownPhase (i : Instr) (s : State) : Phase := if i.isEncoder then s.enc.phase else s.dec.phase

/-- The phase of the command's engine is the one in which it is accepted (R83). -/
abbrev phaseAdmits (i : Instr) (s : State) : Prop := ownPhase i s = admittedPhase i

/-- The data commands, to which alone `BUF_CAP` applies (R250). -/
def isData : Instr → Bool
  | .encBegin => false
  | .encByte _ => true
  | .encEnd => false
  | .decBegin => false
  | .decSym _ => true
  | .decEnd => false

/-- The buffer of a command's own engine (R30). -/
def ownBuf (i : Instr) (s : State) : List (BitVec 8) := if i.isEncoder then s.enc.buf else s.dec.buf

/-- The commands of the encoder in a list, in order. -/
def encoderPart (is : List Instr) : List Instr := is.filter fun i => i.isEncoder

/-- The commands of the decoder in a list, in order. -/
def decoderPart (is : List Instr) : List Instr := is.filter fun i => !i.isEncoder

/-- The legal order (R245): per engine the language `( BEGIN DATA* END )*`, interleaved arbitrarily; here with the data of the
calls, in order. -/
def LegalOrder (is : List Instr) (bytes : List (List Byte)) (texts : List (List Sym)) : Prop :=
  encoderPart is = bytes.flatMap cmdsEnc ∧ decoderPart is = texts.flatMap cmdsDec

/-- `s` built with another `CFG.SPECIAL` (R109). -/
def withSpecial (s : State) (x : Sym) : State := { s with cfg := { s.cfg with special := x } }

/-- The encoder engine's invariant: cleared when idle (R35); the tuple's low `32 - 8 * E_COUNT` bits are zero (R133); an open
enveloped call's buffer begins with the prefix marker. -/
abbrev EncoderInv (cfg : Cfg) (e : Encoder) : Prop :=
  (e.phase = .idle → e = .cleared) ∧
  e.tuple.toNat % 2 ^ (32 - 8 * e.count.val) = 0 ∧
  (e.phase = .opened → cfg.wrap = true → e.buf.take 2 = prefixMarker)

/-- The decoder engine's invariant: cleared when idle (R35); `D_COUNT` = 0 implies `D_TUPLE` = 0, and `D_BUF` holds whole groups
(R172); a misplaced shorthand was found inside a group (R213); the envelope registers are 0 without an envelope (R29), and with
one they fill in the order of R165, nothing being scanned before the delay line is full. -/
abbrev DecoderInv (cfg : Cfg) (d : Decoder) : Prop :=
  (d.phase = .idle → d = .cleared) ∧
  (d.count = 0 → d.tuple = 0#32) ∧
  d.buf.length % 4 = 0 ∧
  (d.err = some .shorthandPlacement → d.count ≠ 0) ∧
  (cfg.wrap = false → d.npre = 0 ∧ d.nhold = 0 ∧ d.envBad = false ∧ d.hold0 = 0#8 ∧ d.hold1 = 0#8) ∧
  (d.npre ≠ 2 → d.nhold = 0) ∧
  (d.npre = 0 → d.envBad = false) ∧
  (d.nhold = 0 → d.hold0 = 0#8) ∧
  (d.nhold ≠ 2 → d.hold1 = 0#8) ∧
  (cfg.wrap = true → d.nhold ≠ 2 → d.count = 0 ∧ d.err = none ∧ d.buf = [])

/-- The records on `ENC_RES`: every status is 0 (R132). -/
abbrev EncResInv (rs : List Record) : Prop := ∀ r ∈ rs, r.status = .ok

/-- The records on `DEC_RES`: a failed record has an empty payload (R220), code 1 never occurs, and code 2 not without an
envelope (R202). -/
abbrev DecResInv (cfg : Cfg) (rs : List Record) : Prop :=
  ∀ r ∈ rs, (r.status ≠ .ok → r.payload = []) ∧ r.status ≠ .error .invalidAlphabet ∧
    (cfg.wrap = false → r.status ≠ .error .malformedEnvelope)

/-- A buffer is within `BUF_CAP`, or no longer than `slack` (R250). -/
def withinCap (bufCap : Option Nat) (slack : Nat) (buf : List (BitVec 8)) : Bool :=
  match bufCap with
  | none => true
  | some cap => decide (buf.length ≤ max cap slack)

/-- The invariant of the machine: a valid configuration (R101), a capacity of at least 1 (92_eei_decisions.md), the engines',
channels' and buffers' invariants. The slack of 2 is the prefix marker, which `ENC_BEGIN` writes whatever `BUF_CAP` is
(assumption log 5). -/
abbrev MachineInv (s : State) : Prop :=
  s.cfg.Valid ∧ s.bufCap ≠ some 0 ∧ EncoderInv s.cfg s.enc ∧ DecoderInv s.cfg s.dec ∧ EncResInv s.encRes ∧
    DecResInv s.cfg s.decRes ∧ withinCap s.bufCap 2 s.enc.buf = true ∧ withinCap s.bufCap 0 s.dec.buf = true

end Sys2Proof.Machine
end

