-- ==== Sys2Proof/Certificates/Slice0/Obligations.lean ====
section
/-! DEFINITION. The statements about base85_core for the provers. Each docstring names the rule of spec/ it formalises. -/

open Sys2Proof Sys2Proof.Machine

/-! ### Encoding, the command port, reset -/

/-- Decode and encode agree, both ways: a word decodes to `i` exactly when it is the word of `i` (R72, R81). -/
def Obligations.WordDecodesToExactlyItsCommand : Prop :=
  ∀ (w : CmdWord) (i : Instr), decode w = .ok i ↔ w = encode i

/-- R81: a word that matches a row of the opcode map (written out here from R72) is that command with `arg = w[7:0]`, every other word
is reserved, no word matches two rows, and `decode_cmd (encode_cmd c) = some c`. -/
def Obligations.DecoderFollowsOpcodeMap : Prop :=
  opcodeTable =
    [⟨"ENC_BEGIN", 0x100#12, 0xFFF#12⟩, ⟨"ENC_BYTE", 0x200#12, 0xF00#12⟩, ⟨"ENC_END", 0x300#12, 0xFFF#12⟩,
     ⟨"DEC_BEGIN", 0x900#12, 0xFFF#12⟩, ⟨"DEC_SYM", 0xA00#12, 0xF00#12⟩, ⟨"DEC_END", 0xB00#12, 0xFFF#12⟩] ∧
  (∀ (w : CmdWord) (r : OpcodeRow), r ∈ opcodeTable → w &&& r.mask = r.pattern →
    ∃ i, decode w = .ok i ∧ i.mnemonic = r.mnemonic ∧ i.fields.arg = w.extractLsb' 0 8) ∧
  (∀ w : CmdWord, (∀ r ∈ opcodeTable, w &&& r.mask ≠ r.pattern) → ∃ e, decode w = .error e) ∧
  (∀ (w : CmdWord) (r₁ r₂ : OpcodeRow), r₁ ∈ opcodeTable → r₂ ∈ opcodeTable →
    w &&& r₁.mask = r₁.pattern → w &&& r₂.mask = r₂.pattern → r₁ = r₂) ∧
  (∀ i : Instr, decodeCmd (encode i) = some i)

/-- R74: the reserved encodings are the two classes (a) and (b), 3580 words of 4096, and `step` refuses each of them in every state as
`ReservedEncoding`. -/
def Obligations.ReservedWordsAreRefused : Prop :=
  (∀ w : CmdWord, (∃ e, decode w = .error e) ↔
    (w.extractLsb' 8 4 ∈ [0x0#4, 0x4#4, 0x5#4, 0x6#4, 0x7#4, 0x8#4, 0xC#4, 0xD#4, 0xE#4, 0xF#4] ∨
      (w.extractLsb' 8 4 ∈ [0x1#4, 0x3#4, 0x9#4, 0xB#4] ∧ w.extractLsb' 0 8 ≠ 0x00#8))) ∧
  ((List.range 4096).filter fun n => (decodeCmd (BitVec.ofNat 12 n)).isNone).length = 3580 ∧
  ((List.range 4096).filter fun n => (decodeCmd (BitVec.ofNat 12 n)).isSome).length = 516 ∧
  (∀ (s : State) (w : CmdWord) (rest : List HostEvent) (e : Reserved), s.input = .command w :: rest → decode w = .error e →
    step s = .refused .reservedEncoding)

/-- Words written out from R72 decode to the commands they stand for (vectors V-C1 to V-C6). -/
def Obligations.SampleWordsDecode : Prop :=
  decode 0x100#12 = .ok .encBegin ∧ decode 0x24D#12 = .ok (.encByte 0x4D#8) ∧ decode 0x2FF#12 = .ok (.encByte 0xFF#8) ∧
  decode 0x300#12 = .ok .encEnd ∧ decode 0x900#12 = .ok .decBegin ∧ decode 0xA7A#12 = .ok (.decSym 0x7A#8) ∧
  decode 0xA00#12 = .ok (.decSym 0x00#8) ∧ decode 0xB00#12 = .ok .decEnd

/-- A step takes the word at the head of the host's input, and when it decodes to `i` executes exactly `i` on the state without that
word (R70, R62). With nothing presented there is no step (R226); that this is answered as the refusal `noCommand` is the model's
own form (log 2). -/
def Obligations.StepExecutesTheDecodedCommand : Prop :=
  (∀ (s : State) (w : CmdWord) (rest : List HostEvent) (i : Instr), s.input = .command w :: rest → decode w = .ok i →
    step s = exec i { s with input := rest }) ∧
  (∀ s : State, s.input = [] → step s = .refused .noCommand)

/-- R240: the reset event, in every state, puts every register, both buffers and both channels to their reset values and leaves `CFG`;
afterwards `ENC_BEGIN` and `DEC_BEGIN` are accepted and every other command is refused. -/
def Obligations.ResetEventResetsEverything : Prop :=
  ∀ (s : State) (rest : List HostEvent), s.input = .reset :: rest →
    ∃ t, step s = .next t ∧
      (∀ r : Reg, readReg t r = .sequence [] ∨ ∃ width, readReg t r = .bits width 0) ∧
      t.encRes = [] ∧ t.decRes = [] ∧ t.cfg = s.cfg ∧ t.bufCap = s.bufCap ∧ t.input = rest ∧
      (∃ u, exec .encBegin t = .next u) ∧ (∃ u, exec .decBegin t = .next u) ∧
      (∀ i : Instr, i ≠ .encBegin → i ≠ .decBegin → exec i t = .refused .protocolViolation)

/-- R83: with unbounded buffers a command is accepted exactly when its own engine is in its phase; in the wrong phase it is refused as
`ProtocolViolation`, and for nothing else; an open call stays open under every accepted command but its own END. -/
def Obligations.AdmissionIsByOwnPhaseOnly : Prop :=
  ∀ (i : Instr) (s : State),
    (s.bufCap = none → ((∃ t, exec i s = .next t) ↔ phaseAdmits i s)) ∧
    (exec i s = .refused .protocolViolation ↔ ¬ phaseAdmits i s) ∧
    (∀ t, exec i s = .next t → s.enc.phase = .opened → i ≠ .encEnd → t.enc.phase = .opened) ∧
    (∀ t, exec i s = .next t → s.dec.phase = .opened → i ≠ .decEnd → t.dec.phase = .opened)

/-- The two causes of a refused word (R222), exactly, and that the machine goes on from the state it had; with unbounded buffers. -/
def Obligations.RefusalsHaveTwoCausesAndChangeNothing : Prop :=
  ∀ (s : State) (w : CmdWord), s.bufCap = none →
    (offer (.command w) s = .refused .reservedEncoding ↔ ∃ e, decode w = .error e) ∧
    (offer (.command w) s = .refused .protocolViolation ↔ ∃ i, decode w = .ok i ∧ ¬ phaseAdmits i s) ∧
    (∀ r, offer (.command w) s = .refused r → r = .reservedEncoding ∨ r = .protocolViolation) ∧
    (∀ r, offer (.command w) s = .refused r → afterEvent s (.command w) = s)

/-- R250: with a finite `BUF_CAP`, an accepted command does what it does with unbounded buffers, and the data command that would exceed
the capacity, and no other, is refused; the bounds a call needs. That a data command which appends nothing is accepted whatever
the buffer holds is the model's reading (log 5). -/
def Obligations.CapacityRefusesTheExceedingDataCommand : Prop :=
  (∀ (i : Instr) (s t : State) (cap : Nat), s.bufCap = some cap → exec i { s with bufCap := none } = .next t →
    (isData i = true ∧ (ownBuf i s).length < (ownBuf i t).length ∧ cap < (ownBuf i t).length →
      exec i s = .refused .bufferFull) ∧
    (¬ (isData i = true ∧ (ownBuf i s).length < (ownBuf i t).length ∧ cap < (ownBuf i t).length) →
      exec i s = .next { t with bufCap := some cap })) ∧
  (∀ (cfg : Cfg) (bytes : List Byte), (encodeCall cfg bytes).length ≤ 5 * ((bytes.length + 3) / 4) + 4) ∧
  (∀ (cfg : Cfg) (text : List Sym), (decodeCall cfg text).payload.length ≤ 4 * text.length)

/-! ### The Alphabet Table -/

/-- R101: `construct` accepts a string exactly when its length is 85 and no symbol occurs twice; every other string is
`InvalidAlphabet`; the special character and the envelope flag never matter. -/
def Obligations.ConstructAcceptsExactlyValidAlphabets : Prop :=
  ∀ (alphabet : List Sym) (special : Sym) (wrapEnvelope : Bool),
    (alphabet.length = 85 ∧ alphabet.Nodup →
      ∃ cfg, construct alphabet special wrapEnvelope = .ok cfg ∧ cfg.alpha.toList = alphabet ∧ cfg.wrap = wrapEnvelope ∧
        cfg.special = special ∧ cfg.Valid) ∧
    (¬ (alphabet.length = 85 ∧ alphabet.Nodup) → construct alphabet special wrapEnvelope = .error .invalidAlphabet)

/-- R111: the two lookups are inverse to each other on the table's range. -/
def Obligations.LookupsAreInverse : Prop :=
  ∀ cfg : Cfg, cfg.Valid →
    (∀ d : Digit, inv cfg (alpha cfg d) = some d) ∧ (∀ (s : Sym) (i : Digit), inv cfg s = some i → alpha cfg i = s)

/-- R103: the inverse ROM built by the two loops holds, at every symbol code, `valid` = 1 and the index of the symbol in the table, or
`valid` = 0 and `idx` = 0; exactly 85 entries are valid and 171 are not. -/
def Obligations.InverseRomIsBuiltRight : Prop :=
  ∀ cfg : Cfg, cfg.Valid →
    (∀ i : Digit, (invRom cfg)[(cfg.alpha[i]).toNat]'(cfg.alpha[i]).isLt = 1#1 ++ BitVec.ofNat 7 i.val) ∧
    (∀ s : Sym, s ∉ cfg.alpha.toList → (invRom cfg)[s.toNat]'s.isLt = 0#8) ∧
    (∀ s : Sym, (invRom cfg)[s.toNat]'s.isLt = (inverseRomUnit cfg s).1 ++ (inverseRomUnit cfg s).2) ∧
    ((invRom cfg).toList.filter fun e => e.extractLsb' 7 1 == 1#1).length = 85 ∧
    ((invRom cfg).toList.filter fun e => e.extractLsb' 7 1 == 0#1).length = 171

/-- With the default alphabet the lookups are `0x21 + d` and `s - 0x21` on 0x21 to 0x75, nothing elsewhere (R108). -/
def Obligations.DefaultAlphabetLookups : Prop :=
  construct = .ok defaultCfg ∧ defaultCfg.Valid ∧ defaultCfg.wrap = false ∧
  (∀ d : Digit, (alpha defaultCfg d).toNat = 0x21 + d.val) ∧
  (∀ s : Sym, (∃ d, inv defaultCfg s = some d ∧ s.toNat = 0x21 + d.val) ∨
    (inv defaultCfg s = none ∧ (s.toNat < 0x21 ∨ 0x75 < s.toNat)))

/-- R107: no step, whatever the host presents, changes the configuration; nor `BUF_CAP`. -/
def Obligations.ConfigurationNeverChanges : Prop :=
  ∀ s t : State, step s = .next t → t.cfg = s.cfg ∧ t.bufCap = s.bufCap ∧ invRom t.cfg = invRom s.cfg

/-- R109: no rule reads `CFG.SPECIAL`: with another value every command has the same outcome, the same registers, records and
refusals. -/
def Obligations.SpecialCharacterIsNeverRead : Prop :=
  ∀ (i : Instr) (s : State) (x : Sym),
    (∀ t, exec i s = .next t → exec i (withSpecial s x) = .next (withSpecial t x)) ∧
    (∀ r, exec i s = .refused r → exec i (withSpecial s x) = .refused r)

/-! ### block_packer, base85_encoder -/

/-- R121: `pack` is the weighted sum, is `pack_step` folded from `t = 0`, `c = 0`; of four bytes it is `{b0, b1, b2, b3}`; every 32-bit
value is `pack` of exactly one 4-byte sequence. -/
def Obligations.PackIsBigEndian : Prop :=
  (∀ bs : List Byte, bs.length ≤ 4 →
    (pack bs).toNat = ((List.range bs.length).map fun i => (bs.getD i 0#8).toNat * 2 ^ (24 - 8 * i)).sum) ∧
  (∀ bs : List Byte, bs.length ≤ 4 →
    pack bs = (bs.foldl (fun (p : Tuple × Fin 4) b => (packStep p.1 p.2 b, p.2 + 1)) (0#32, 0)).1) ∧
  (∀ b0 b1 b2 b3 : Byte, pack [b0, b1, b2, b3] = b0 ++ b1 ++ b2 ++ b3) ∧
  pack [] = 0#32 ∧
  (∀ t : Tuple, ∃! bs : List Byte, bs.length = 4 ∧ pack bs = t)

/-- R123: the digits are `(t div 85^(4-i)) mod 85`, always five, and they spell the tuple. -/
def Obligations.DigitsSpellTheTuple : Prop :=
  ∀ t : Tuple, ∃ d0 d1 d2 d3 d4 : Digit, digits85 t = [d0, d1, d2, d3, d4] ∧
    d0.val = (t.toNat / 85 ^ 4) % 85 ∧ d1.val = (t.toNat / 85 ^ 3) % 85 ∧ d2.val = (t.toNat / 85 ^ 2) % 85 ∧
    d3.val = (t.toNat / 85) % 85 ∧ d4.val = t.toNat % 85 ∧
    t.toNat = d0.val * 85 ^ 4 + d1.val * 85 ^ 3 + d2.val * 85 ^ 2 + d3.val * 85 + d4.val

/-- R124: the first digit is at most 82, the quotients are bounded and the fifth division leaves 0; `digits85` is injective. -/
def Obligations.DigitRanges : Prop :=
  (∀ t : Tuple, ∃ d0 rest, digits85 t = d0 :: rest ∧ d0.val ≤ 82) ∧
  (∀ t : Tuple, (divmod85 t).1.toNat ≤ 50529027 ∧ (divmod85 (divmod85 t).1).1.toNat ≤ 594459 ∧
    (divmod85 (divmod85 (divmod85 t).1).1).1.toNat ≤ 6993 ∧ (divmod85 (divmod85 (divmod85 (divmod85 t).1).1).1).1.toNat ≤ 82 ∧
    (divmod85 (divmod85 (divmod85 (divmod85 (divmod85 t).1).1).1).1).1 = 0#32) ∧
  (∀ t u : Tuple, digits85 t = digits85 u → t = u)

/-- A full group gives the shorthand exactly for four zero bytes, whatever the configuration, and five alphabet symbols otherwise
(R125, R126). -/
def Obligations.GroupSymbols : Prop :=
  (∀ b0 b1 b2 b3 : Byte, pack [b0, b1, b2, b3] = 0#32 ↔ b0 = 0#8 ∧ b1 = 0#8 ∧ b2 = 0#8 ∧ b3 = 0#8) ∧
  (∀ cfg : Cfg, groupSyms cfg 0#32 = [0x7A#8]) ∧
  (∀ (cfg : Cfg) (t : Tuple), t ≠ 0#32 → groupSyms cfg t = (digits85 t).map (alpha cfg) ∧ (groupSyms cfg t).length = 5)

/-- R197: a zero group, wherever it stands in a buffer, encodes to the one symbol 0x7A; a nonzero group to five symbols and a partial
group of `n` bytes to `n + 1`, none of them 0x7A when the alphabet lacks it; four consecutive zero bytes that straddle a group
boundary are no zero group. -/
def Obligations.ShorthandOnlyForZeroGroups : Prop :=
  (∀ cfg : Cfg, encodeContent cfg [0#8, 0#8, 0#8, 0#8] = [0x7A#8]) ∧
  (∀ (cfg : Cfg) (before after : List Byte), before.length % 4 = 0 →
    encodeContent cfg (before ++ [0#8, 0#8, 0#8, 0#8] ++ after)
      = encodeContent cfg before ++ [0x7A#8] ++ encodeContent cfg after) ∧
  (∀ (cfg : Cfg) (before group after : List Byte), before.length % 4 = 0 → group.length = 4 → group ≠ [0#8, 0#8, 0#8, 0#8] →
    ∃ syms, encodeContent cfg (before ++ group ++ after) = encodeContent cfg before ++ syms ++ encodeContent cfg after ∧
      syms.length = 5 ∧ (0x7A#8 ∉ cfg.alpha.toList → 0x7A#8 ∉ syms)) ∧
  (∀ (cfg : Cfg) (before tail : List Byte), before.length % 4 = 0 → 1 ≤ tail.length → tail.length ≤ 3 →
    ∃ syms, encodeContent cfg (before ++ tail) = encodeContent cfg before ++ syms ∧
      syms.length = tail.length + 1 ∧ (0x7A#8 ∉ cfg.alpha.toList → 0x7A#8 ∉ syms)) ∧
  (∀ cfg : Cfg, (encodeContent cfg [0x01#8, 0#8, 0#8, 0#8, 0#8, 0x01#8, 0#8, 0#8]).length = 10)

/-! ### The encoder commands -/

/-- R129: `ENC_BEGIN` opens an encode call, with the prefix marker in the buffer when `CFG.WRAP` = 1; nothing else changes. While a call
is open it is refused. -/
def Obligations.EncBeginOpensACall : Prop :=
  ∀ s : State,
    (s.enc.phase = .idle → s.cfg.wrap = true →
      exec .encBegin s = .next { s with enc := { phase := .opened, tuple := 0#32, count := 0, buf := [0x3C#8, 0x7E#8] } }) ∧
    (s.enc.phase = .idle → s.cfg.wrap = false →
      exec .encBegin s = .next { s with enc := { phase := .opened, tuple := 0#32, count := 0, buf := [] } }) ∧
    (s.enc.phase = .opened → exec .encBegin s = .refused .protocolViolation)

/-- R130: the first three bytes of a group are packed; the fourth completes the group, appends its symbols and clears the packer;
nothing else changes (a finite `BUF_CAP` must have room, R250). While idle `ENC_BYTE` is refused. -/
def Obligations.EncByteTakesAByte : Prop :=
  ∀ (s : State) (b : Byte),
    (s.enc.phase = .opened → s.enc.count ≠ 3 →
      exec (.encByte b) s = .next { s with enc := { s.enc with
        tuple := s.enc.tuple ||| (b.setWidth 32 <<< (24 - 8 * s.enc.count.val)), count := s.enc.count + 1 } }) ∧
    (s.enc.phase = .opened → s.enc.count = 3 →
      (∀ cap, s.bufCap = some cap → (s.enc.buf ++ groupSyms s.cfg (s.enc.tuple ||| b.setWidth 32)).length ≤ cap) →
      exec (.encByte b) s = .next { s with enc := { s.enc with
        tuple := 0#32, count := 0, buf := s.enc.buf ++ groupSyms s.cfg (s.enc.tuple ||| b.setWidth 32) } }) ∧
    (s.enc.phase = .idle → exec (.encByte b) s = .refused .protocolViolation)

/-- R131: `ENC_END` appends one record of status 0 to `ENC_RES`: the buffer, then the first `E_COUNT + 1` symbols of the padded tuple
when a partial group is pending, then the postfix marker when `CFG.WRAP` = 1; the encoder returns to its reset state and nothing
else changes. While idle it is refused. -/
def Obligations.EncEndPublishesTheRecord : Prop :=
  ∀ s : State,
    (s.enc.phase = .opened →
      exec .encEnd s = .next { s with
        enc := { phase := .idle, tuple := 0#32, count := 0, buf := [] }
        encRes := s.encRes ++ [{ status := .ok, payload :=
          s.enc.buf
            ++ (if 0 < s.enc.count.val then (syms5 s.cfg s.enc.tuple).take (s.enc.count.val + 1) else [])
            ++ (if s.cfg.wrap = true then [0x7E#8, 0x3E#8] else []) }] }) ∧
    (s.enc.phase = .idle → exec .encEnd s = .refused .protocolViolation)

/-- R133: after `ENC_BEGIN` and the bytes `B`, the packer holds the bytes since the last group boundary, padded with zeros, and the
buffer holds the prefix marker and the symbols of every completed group in order. -/
def Obligations.PackerHoldsThePartialGroup : Prop :=
  ∀ (s : State) (bytes : List Byte), s.enc.phase = .idle → s.bufCap = none →
    ∃ t, runCommands (.encBegin :: bytes.map .encByte) s = .next t ∧
      t.enc.phase = .opened ∧ t.enc.count.val = bytes.length % 4 ∧
      t.enc.tuple = pack (bytes.drop (4 * (bytes.length / 4))) ∧
      t.enc.tuple.toNat % 2 ^ (32 - 8 * t.enc.count.val) = 0 ∧
      t.enc.buf = (if s.cfg.wrap = true then [0x3C#8, 0x7E#8] else []) ++
        (List.range (bytes.length / 4)).flatMap fun j => groupSyms s.cfg (pack ((bytes.drop (4 * j)).take 4))

/-- R132: encode cannot fail: with unbounded buffers every encoder command in its phase is accepted, and every record an encoder
command appends to `ENC_RES` has status 0. -/
def Obligations.EncodeCannotFail : Prop :=
  ∀ (i : Instr) (s : State), i.isEncoder = true →
    (s.bufCap = none → phaseAdmits i s → ∃ t, exec i s = .next t) ∧
    (∀ t, exec i s = .next t → t.encRes = s.encRes ∨ ∃ r, t.encRes = s.encRes ++ [r] ∧ r.status = .ok)

/-! ### base85_decoder, block_unpacker -/

/-- R150: the shorthand is tested first, so 0x7A is never a digit; any other symbol is the digit the inverse ROM gives, or invalid;
with the default alphabet the digits are 0x21 to 0x75. -/
def Obligations.ClassifyTestsTheShorthandFirst : Prop :=
  (∀ cfg : Cfg, classify cfg 0x7A#8 = .shorthand) ∧
  (∀ (cfg : Cfg) (s : Sym) (i : Digit), s ≠ 0x7A#8 → inv cfg s = some i → classify cfg s = .digit i) ∧
  (∀ (cfg : Cfg) (s : Sym), s ≠ 0x7A#8 → inv cfg s = none → classify cfg s = .invalid) ∧
  (∀ s : Sym, 0x21 ≤ s.toNat → s.toNat ≤ 0x75 → ∃ i : Digit, classify defaultCfg s = .digit i ∧ i.val = s.toNat - 0x21) ∧
  (∀ s : Sym, s ≠ 0x7A#8 → (s.toNat < 0x21 ∨ 0x75 < s.toNat) → classify defaultCfg s = .invalid)

/-- R151: a digit `i` at count `c` adds `i * 85^(4-c)` modulo 2^32. -/
def Obligations.AccumulatorAddsModulo32Bits : Prop :=
  ∀ (t : Tuple) (c : Fin 5) (i : Digit), (accStep t c i).toNat = (t.toNat + i.val * 85 ^ (4 - c.val)) % 2 ^ 32

/-- R152: the Horner form agrees with the positional form: after `c` digits `t_c = trunc32(h_c * 85^(5-c))`, after five they are equal, and
the biased tuple of a tail is `trunc32((h_c + 1) * 85^(5-c))`. -/
def Obligations.HornerFormAgrees : Prop :=
  (∀ ds : List Digit, ds.length ≤ 5 →
    (accDigits ds 0 0#32).toNat = ((hornerDigits ds).toNat * 85 ^ (5 - ds.length)) % 2 ^ 32) ∧
  (∀ ds : List Digit, ds.length = 5 → accDigits ds 0 0#32 = hornerDigits ds) ∧
  (∀ ds : List Digit, 2 ≤ ds.length → ds.length ≤ 4 →
    ((accDigits ds 0 0#32).toNat + 85 ^ (4 - (ds.length - 1))) % 2 ^ 32
      = (((hornerDigits ds).toNat + 1) * 85 ^ (5 - ds.length)) % 2 ^ 32)

/-- R153: `unpack` gives the bytes big-endian and is the inverse of `pack` on 4-byte sequences. -/
def Obligations.UnpackInvertsPack : Prop :=
  (∀ t : Tuple, unpack t = [t.extractLsb' 24 8, t.extractLsb' 16 8, t.extractLsb' 8 8, t.extractLsb' 0 8]) ∧
  (∀ t : Tuple, pack (unpack t) = t) ∧ (∀ bs : List Byte, bs.length = 4 → unpack (pack bs) = bs)

/-- R156: a tail of `count` symbols gives the first `k = count - 1` bytes of the tuple plus `85^(4-k)` modulo 2^32 (the bias of R155:
614125, 7225, 85). -/
def Obligations.TailBytesAddTheBias : Prop :=
  ∀ (count : Fin 5) (t : Tuple), 2 ≤ count.val →
    tailBytes count t = (unpack (BitVec.ofNat 32 (t.toNat + 85 ^ (4 - (count.val - 1))))).take (count.val - 1)

/-- R157: the digits an encoder keeps of a partial group of `k` bytes accumulate to a tuple whose bias does not wrap and whose tail
bytes are exactly the `k` bytes; on `"!!$!"` the bias itself, not one less, is added. -/
def Obligations.TailOfAPartialGroupGivesItsBytes : Prop :=
  (∀ bs : List Byte, 1 ≤ bs.length → bs.length ≤ 3 → ∀ count : Fin 5, count.val = bs.length + 1 →
    (accDigits ((digits85 (pack bs)).take (bs.length + 1)) 0 0#32).toNat + 85 ^ (4 - bs.length) < 2 ^ 32 ∧
    tailBytes count (accDigits ((digits85 (pack bs)).take (bs.length + 1)) 0 0#32) = bs) ∧
  decodeCall defaultCfg [0x21#8, 0x21#8, 0x24#8, 0x21#8] = { status := .ok, payload := [0x00#8, 0x00#8, 0x55#8] }

/-! ### The decoder commands -/

/-- R160: what one content symbol does, case by case. -/
def Obligations.ScanOfOneSymbol : Prop :=
  ∀ (cfg : Cfg) (d : Decoder) (c : Sym),
    (d.err ≠ none → scan cfg d c = d) ∧
    (d.err = none → classify cfg c = .shorthand → d.count ≠ 0 → scan cfg d c = { d with err := some .shorthandPlacement }) ∧
    (d.err = none → classify cfg c = .shorthand → d.count = 0 →
      scan cfg d c = { d with buf := d.buf ++ [0x00#8, 0x00#8, 0x00#8, 0x00#8] }) ∧
    (d.err = none → classify cfg c = .invalid → scan cfg d c = { d with err := some .symbol }) ∧
    (∀ i, d.err = none → classify cfg c = .digit i → d.count = 4 →
      scan cfg d c = { d with buf := d.buf ++ unpack (accStep d.tuple d.count i), tuple := 0#32, count := 0 }) ∧
    (∀ i, d.err = none → classify cfg c = .digit i → d.count ≠ 4 →
      scan cfg d c = { d with tuple := accStep d.tuple d.count i, count := d.count + 1 })

/-- R163: `DEC_BEGIN` opens a decode call with every decoder register at 0 and an empty buffer, whatever `CFG.WRAP` is; nothing else
changes. While a call is open it is refused. -/
def Obligations.DecBeginOpensACall : Prop :=
  ∀ s : State,
    (s.dec.phase = .idle →
      exec .decBegin s = .next { s with dec :=
        { phase := .opened, tuple := 0#32, count := 0, err := none, npre := 0, envBad := false, hold0 := 0#8, hold1 := 0#8,
          nhold := 0, buf := [] } }) ∧
    (s.dec.phase = .opened → exec .decBegin s = .refused .protocolViolation)

/-- R166: without an envelope the symbol is scanned; with one the first two are compared with `<~`, the next two fill the delay line,
and each later one enters it and the oldest held symbol is scanned. Nothing else changes (a finite `BUF_CAP` must have room where
the scan appends, R250). While idle `DEC_SYM` is refused. -/
def Obligations.DecSymTakesASymbol : Prop :=
  ∀ (s : State) (sym : Sym),
    (s.dec.phase = .opened → s.cfg.wrap = false →
      (∀ cap, s.bufCap = some cap → (scan s.cfg s.dec sym).buf = s.dec.buf ∨ (scan s.cfg s.dec sym).buf.length ≤ cap) →
      exec (.decSym sym) s = .next { s with dec := scan s.cfg s.dec sym }) ∧
    (s.dec.phase = .opened → s.cfg.wrap = true → s.dec.npre = 0 →
      exec (.decSym sym) s = .next { s with dec :=
        { s.dec with envBad := if sym = 0x3C#8 then s.dec.envBad else true, npre := 1 } }) ∧
    (s.dec.phase = .opened → s.cfg.wrap = true → s.dec.npre = 1 →
      exec (.decSym sym) s = .next { s with dec :=
        { s.dec with envBad := if sym = 0x7E#8 then s.dec.envBad else true, npre := 2 } }) ∧
    (s.dec.phase = .opened → s.cfg.wrap = true → s.dec.npre = 2 → s.dec.nhold = 0 →
      exec (.decSym sym) s = .next { s with dec := { s.dec with hold0 := sym, nhold := 1 } }) ∧
    (s.dec.phase = .opened → s.cfg.wrap = true → s.dec.npre = 2 → s.dec.nhold = 1 →
      exec (.decSym sym) s = .next { s with dec := { s.dec with hold1 := sym, nhold := 2 } }) ∧
    (∀ d, d = scan s.cfg { s.dec with hold0 := s.dec.hold1, hold1 := sym } s.dec.hold0 →
      s.dec.phase = .opened → s.cfg.wrap = true → s.dec.npre = 2 → s.dec.nhold = 2 →
      (∀ cap, s.bufCap = some cap → d.buf = s.dec.buf ∨ d.buf.length ≤ cap) →
      exec (.decSym sym) s = .next { s with dec := d }) ∧
    (s.dec.phase = .idle → exec (.decSym sym) s = .refused .protocolViolation)

/-- R169, R170: `DEC_END` appends one record to `DEC_RES`, by the first that holds: envelope bad, code 2; a scan error, its code; a
lone symbol, code 5; else the bytes with those of the tail. Every decoder register returns to 0 and nothing else changes. While
idle it is refused. -/
def Obligations.DecEndPublishesTheRecord : Prop :=
  ∀ s : State, ∀ close : Record → State,
    (∀ r, close r = { s with
      decRes := s.decRes ++ [r]
      dec := { phase := .idle, tuple := 0#32, count := 0, err := none, npre := 0, envBad := false, hold0 := 0#8,
               hold1 := 0#8, nhold := 0, buf := [] } }) →
    (s.dec.phase = .opened → envOk s.cfg s.dec = false →
      exec .decEnd s = .next (close { status := .error .malformedEnvelope, payload := [] })) ∧
    (s.dec.phase = .opened → envOk s.cfg s.dec = true → s.dec.err = some .shorthandPlacement →
      exec .decEnd s = .next (close { status := .error .invalidShorthandPlacement, payload := [] })) ∧
    (s.dec.phase = .opened → envOk s.cfg s.dec = true → s.dec.err = some .symbol →
      exec .decEnd s = .next (close { status := .error .invalidSymbol, payload := [] })) ∧
    (s.dec.phase = .opened → envOk s.cfg s.dec = true → s.dec.err = none → s.dec.count = 0 →
      exec .decEnd s = .next (close { status := .ok, payload := s.dec.buf })) ∧
    (s.dec.phase = .opened → envOk s.cfg s.dec = true → s.dec.err = none → s.dec.count = 1 →
      exec .decEnd s = .next (close { status := .error .truncatedBlock, payload := [] })) ∧
    (s.dec.phase = .opened → envOk s.cfg s.dec = true → s.dec.err = none → 2 ≤ s.dec.count.val →
      exec .decEnd s = .next (close { status := .ok, payload := s.dec.buf ++ tailBytes s.dec.count s.dec.tuple })) ∧
    (s.dec.phase = .idle → exec .decEnd s = .refused .protocolViolation)

/-- R162: once a symbol has failed, any number of further symbols is accepted and changes neither the tuple, the count, the buffer nor
the recorded error; `DEC_END` then reports that error if the envelope is good. -/
def Obligations.FirstScanErrorIsKept : Prop :=
  ∀ (s : State) (text : List Sym) (e : ScanError), s.dec.phase = .opened → s.dec.err = some e →
    ∃ t, runCommands (text.map .decSym) s = .next t ∧
      t.dec.tuple = s.dec.tuple ∧ t.dec.count = s.dec.count ∧ t.dec.buf = s.dec.buf ∧ t.dec.err = s.dec.err ∧
      t.dec.phase = .opened ∧ t.decRes = s.decRes ∧
      (envOk t.cfg t.dec = true → ∃ u, exec .decEnd t = .next u ∧
        u.decRes = s.decRes ++ [{ status := .error (scanErrorAsError e), payload := [] }])

/-- R165: with an envelope, after `L` symbols `D_NPRE = min(L, 2)`, `D_NHOLD = min(L - 2, 2)`, the symbols scanned are `s_2 .. s_(L-3)`,
the delay line holds the last `D_NHOLD` symbols, and `D_ENVBAD` tells a wrong prefix symbol. -/
def Obligations.EnvelopeCheckIsStreamed : Prop :=
  ∀ (s : State) (text : List Sym), s.dec.phase = .idle → s.cfg.wrap = true → s.bufCap = none →
    ∃ t, runCommands (.decBegin :: text.map .decSym) s = .next t ∧
      t.dec.npre.val = min text.length 2 ∧ t.dec.nhold.val = min (text.length - 2) 2 ∧
      (t.dec.nhold = 1 → [t.dec.hold0] = text.drop (text.length - 1)) ∧
      (t.dec.nhold = 2 → [t.dec.hold0, t.dec.hold1] = text.drop (text.length - 2)) ∧
      (t.dec.envBad = true ↔ ¬ (text.take 2 <+: [0x3C#8, 0x7E#8])) ∧
      (∀ d, d = ((text.drop 2).take (text.length - 4)).foldl (scan s.cfg) decOpen →
        t.dec.tuple = d.tuple ∧ t.dec.count = d.count ∧ t.dec.err = d.err ∧ t.dec.buf = d.buf)

/-- R167: the envelope verdict by its registers, and what it says of the text of the call: with an envelope it holds exactly when the
text has at least four symbols, starts with `<~` and ends with `~>`. -/
def Obligations.EnvelopeVerdict : Prop :=
  (∀ (cfg : Cfg) (d : Decoder), envOk cfg d = true ↔
    (cfg.wrap = false ∨ (d.npre = 2 ∧ d.envBad = false ∧ d.nhold = 2 ∧ d.hold0 = 0x7E#8 ∧ d.hold1 = 0x3E#8))) ∧
  (∀ (s t : State) (text : List Sym), s.dec.phase = .idle → s.cfg.wrap = true →
    runCommands (.decBegin :: text.map .decSym) s = .next t →
    (envOk t.cfg t.dec = true ↔
      (4 ≤ text.length ∧ text.take 2 = [0x3C#8, 0x7E#8] ∧ text.drop (text.length - 2) = [0x7E#8, 0x3E#8])))

/-- R218: the order of causes: a bad envelope wins; else the earliest failing content symbol, whatever follows it; else the lone last
symbol; else the call succeeds. -/
def Obligations.CallErrorPriority : Prop :=
  ∀ (cfg : Cfg) (text : List Sym),
    (cfg.wrap = true → envelopeGood text = false →
      decodeCall cfg text = { status := .error .malformedEnvelope, payload := [] }) ∧
    (∀ content, (cfg.wrap = true → envelopeGood text = true ∧ content = (text.drop 2).take (text.length - 4)) →
      (cfg.wrap = false → content = text) →
      (∀ earlier c later d, content = earlier ++ c :: later → d = earlier.foldl (scan cfg) decOpen → d.err = none →
        (c = 0x7A#8 → d.count ≠ 0 → decodeCall cfg text = { status := .error .invalidShorthandPlacement, payload := [] }) ∧
        (c ≠ 0x7A#8 → inv cfg c = none → decodeCall cfg text = { status := .error .invalidSymbol, payload := [] })) ∧
      (∀ d, d = content.foldl (scan cfg) decOpen → d.err = none →
        (d.count = 1 → decodeCall cfg text = { status := .error .truncatedBlock, payload := [] }) ∧
        (d.count ≠ 1 → (decodeCall cfg text).status = .ok)))

/-- R220: nothing of a decode call is visible before `DEC_END`, which appends exactly one record; a record whose status is not 0 has an
empty payload. -/
def Obligations.NoPartialResults : Prop :=
  ∀ (i : Instr) (s t : State), exec i s = .next t →
    (i ≠ .decEnd → t.decRes = s.decRes) ∧
    (i = .decEnd → ∃ r, t.decRes = s.decRes ++ [r] ∧ (r.status ≠ .ok → r.payload = []))

/-! ### Frames, independence, invariants -/

/-- The frame of the data commands over the registers of R32: `ENC_BYTE` may change `E_TUPLE`, `E_COUNT` and `E_BUF` only, `DEC_SYM` the
decoder's registers but `D_PHASE`; a buffer changes by appending only; channels, configuration and input stay (R23, R25, R30). -/
def Obligations.DataCommandsFrame : Prop :=
  (∀ (b : Byte) (s t : State), exec (.encByte b) s = .next t →
    (∀ r, r ≠ .eTuple → r ≠ .eCount → r ≠ .eBuf → readReg t r = readReg s r) ∧ s.enc.buf <+: t.enc.buf ∧
    t.encRes = s.encRes ∧ t.decRes = s.decRes ∧ t.cfg = s.cfg ∧ t.bufCap = s.bufCap ∧ t.input = s.input) ∧
  (∀ (sym : Sym) (s t : State), exec (.decSym sym) s = .next t →
    (∀ r, regIsEncoder r = true ∨ r = .dPhase → readReg t r = readReg s r) ∧ s.dec.buf <+: t.dec.buf ∧
    (s.cfg.wrap = false → ∀ r ∈ [Reg.dNpre, .dEnvbad, .dHold0, .dHold1, .dNhold], readReg t r = readReg s r) ∧
    (s.cfg.wrap = true → s.dec.nhold ≠ 2 → ∀ r ∈ [Reg.dTuple, .dCount, .dErr, .dBuf], readReg t r = readReg s r) ∧
    t.encRes = s.encRes ∧ t.decRes = s.decRes ∧ t.cfg = s.cfg ∧ t.bufCap = s.bufCap ∧ t.input = s.input)

/-- R65: no command reads or writes the other engine's registers, buffer or channel: its outcome does not depend on them and it leaves
them as they were; hence an encoder command and a decoder command that follow one another may be swapped. -/
def Obligations.EnginesAreIndependent : Prop :=
  (∀ (i : Instr) (s t : State), i.isEncoder = true → exec i s = .next t →
    ∀ d rs, exec i { s with dec := d, decRes := rs } = .next { t with dec := d, decRes := rs } ∧
      t.dec = s.dec ∧ t.decRes = s.decRes) ∧
  (∀ (i : Instr) (s t : State), i.isEncoder = false → exec i s = .next t →
    ∀ e rs, exec i { s with enc := e, encRes := rs } = .next { t with enc := e, encRes := rs } ∧
      t.enc = s.enc ∧ t.encRes = s.encRes) ∧
  (∀ (i j : Instr) (s t u : State), i.isEncoder ≠ j.isEncoder → exec i s = .next t → exec j t = .next u →
    ∃ v, exec j s = .next v ∧ exec i v = .next u)

/-- The registers of an idle engine other than its phase cannot affect any result: every command of the engine has the same outcome
whatever they hold (R34, 93_implementation_defined.md U11). -/
def Obligations.IdleRegistersCannotMatter : Prop :=
  (∀ (i : Instr) (s : State) (e : Encoder), i.isEncoder = true → s.enc.phase = .idle → e.phase = .idle →
    exec i { s with enc := e } = exec i s) ∧
  (∀ (i : Instr) (s : State) (d : Decoder), i.isEncoder = false → s.dec.phase = .idle → d.phase = .idle →
    exec i { s with dec := d } = exec i s)

/-- The reset state satisfies the invariant (R34, R35). -/
def Obligations.InvariantHoldsAtReset : Prop :=
  MachineInv State.reset ∧ ∀ (cfg : Cfg) (bufCap : Option Nat), cfg.Valid → bufCap ≠ some 0 → MachineInv (State.resetOf cfg bufCap)

/-- Every step keeps the invariant, whatever the host presents: the configuration stays valid (R101) and the capacity at least 1; idle
engines are cleared (R35); the packer's low bits are zero (R133); the decoder's registers are related as R165 and R172 say; every
record of `ENC_RES` is OK (R132), failed records of `DEC_RES` are empty (R220) and carry no code that R202 rules out; `D_BUF` is
within `BUF_CAP` (R250), and `E_BUF` within `BUF_CAP` or no longer than the two symbols of the prefix marker, which `ENC_BEGIN`
writes whatever `BUF_CAP` is: the model's choice (log 5). -/
def Obligations.EveryStepKeepsTheInvariant : Prop :=
  ∀ s t : State, MachineInv s → step s = .next t → MachineInv t

/-! ### Calls -/

/-- From any state whose encoder is idle, the commands of an encode call are all accepted, append exactly the record
`(0, encode(CFG, B))` to `ENC_RES`, leave the encoder cleared and touch nothing else (R194, encoder half). -/
def Obligations.EncodeCallGivesTheClosedForm : Prop :=
  ∀ (s : State) (bytes : List Byte), s.enc.phase = .idle → s.bufCap = none →
    runCommands (cmdsEnc bytes) s = .next { s with
      enc := .cleared, encRes := s.encRes ++ [{ status := .ok, payload := encodeCall s.cfg bytes }] }

/-- From any state whose decoder is idle, the commands of a decode call are all accepted, append exactly the record `decode(CFG, T)` to
`DEC_RES`, leave the decoder cleared and touch nothing else (R194, decoder half). -/
def Obligations.DecodeCallGivesTheClosedForm : Prop :=
  ∀ (s : State) (text : List Sym), s.dec.phase = .idle → s.bufCap = none →
    runCommands (cmdsDec text) s = .next { s with dec := .cleared, decRes := s.decRes ++ [decodeCall s.cfg text] }

/-- The same with any accepted commands of the other engine interleaved anywhere (R194, R65): whatever the other engine does, the call's
record is the closed form and its engine is cleared. -/
def Obligations.InterleavingDoesNotDisturbACall : Prop :=
  ∀ (s t : State) (is : List Instr), s.bufCap = none → runCommands is s = .next t →
    (∀ bytes, s.enc.phase = .idle → encoderPart is = cmdsEnc bytes →
      t.enc = .cleared ∧ t.encRes = s.encRes ++ [{ status := .ok, payload := encodeCall s.cfg bytes }]) ∧
    (∀ text, s.dec.phase = .idle → decoderPart is = cmdsDec text →
      t.dec = .cleared ∧ t.decRes = s.decRes ++ [decodeCall s.cfg text])

/-- R245: from reset, a command list runs to a complete end (R246) exactly when it is in legal order, and then the channels hold the
closed forms of its calls, in order (R194); it runs without a refusal exactly when it can be continued to a legal order; any other
order meets a `ProtocolViolation`. -/
def Obligations.LegalOrderIsWhatRunsToCompletion : Prop :=
  ∀ (cfg : Cfg) (is : List Instr),
    (∀ bytes texts, LegalOrder is bytes texts →
      runEnd cfg none (asEvents is) = .complete
        (bytes.map (fun b => { status := .ok, payload := encodeCall cfg b }), texts.map (decodeCall cfg))) ∧
    (∀ observed, runEnd cfg none (asEvents is) = .complete observed → ∃ bytes texts, LegalOrder is bytes texts) ∧
    ((∃ t, runCommands is (State.resetOf cfg none) = .next t) ↔ ∃ more bytes texts, LegalOrder (is ++ more) bytes texts) ∧
    ((¬ ∃ more bytes texts, LegalOrder (is ++ more) bytes texts) →
      runEnd cfg none (asEvents is) = .refused .protocolViolation)

/-- A call's record does not depend on earlier calls or on the other engine: two machines of one configuration, whatever else differs,
append the same records for the same commands of an engine that starts idle (R203). -/
def Obligations.RecordsDependOnConfigurationAndCallOnly : Prop :=
  ∀ (s₁ s₂ t₁ t₂ : State) (is₁ is₂ : List Instr), s₁.cfg = s₂.cfg → s₁.bufCap = s₂.bufCap →
    runCommands is₁ s₁ = .next t₁ → runCommands is₂ s₂ = .next t₂ →
    (s₁.enc.phase = .idle → s₂.enc.phase = .idle → encoderPart is₁ = encoderPart is₂ →
      ∃ rs, t₁.encRes = s₁.encRes ++ rs ∧ t₂.encRes = s₂.encRes ++ rs) ∧
    (s₁.dec.phase = .idle → s₂.dec.phase = .idle → decoderPart is₁ = decoderPart is₂ →
      ∃ rs, t₁.decRes = s₁.decRes ++ rs ∧ t₂.decRes = s₂.decRes ++ rs)

/-- R195: for every valid configuration whose alphabet lacks 0x7A, as the default one does, decoding the encoding of any byte sequence gives
it back; with 0x7A at index `j` it fails for every 4-byte nonzero group whose first digit is `j`. -/
def Obligations.RoundTrip : Prop :=
  (∀ (cfg : Cfg) (bytes : List Byte), cfg.Valid → 0x7A#8 ∉ cfg.alpha.toList →
    decodeCall cfg (encodeCall cfg bytes) = { status := .ok, payload := bytes }) ∧
  0x7A#8 ∉ defaultCfg.alpha.toList ∧
  (∀ (cfg : Cfg) (bytes : List Byte) (j : Digit) (rest : List Digit), cfg.Valid → alpha cfg j = 0x7A#8 → bytes.length = 4 →
    pack bytes ≠ 0#32 → digits85 (pack bytes) = j :: rest →
    decodeCall cfg (encodeCall cfg bytes) ≠ { status := .ok, payload := bytes })

/-- R196: for a text that an encode call made, encoding what it decodes to gives the text back. -/
def Obligations.ReencodingAnEncodedText : Prop :=
  ∀ (cfg : Cfg) (bytes bytes' : List Byte) (text : List Sym), cfg.Valid → 0x7A#8 ∉ cfg.alpha.toList →
    text = encodeCall cfg bytes → decodeCall cfg text = { status := .ok, payload := bytes' } → encodeCall cfg bytes' = text

/-- R201: `decode` is not injective: the source's cases, with the default alphabet. -/
def Obligations.DecodeIsNotInjective : Prop :=
  decodeCall defaultCfg [0x7A#8] = { status := .ok, payload := [0#8, 0#8, 0#8, 0#8] } ∧
  decodeCall defaultCfg [0x21#8, 0x21#8, 0x21#8, 0x21#8, 0x21#8] = { status := .ok, payload := [0#8, 0#8, 0#8, 0#8] } ∧
  encodeCall defaultCfg [0#8, 0#8, 0#8, 0#8] = [0x7A#8] ∧
  decodeCall defaultCfg [0x72#8, 0x72#8] = { status := .ok, payload := [0xFF#8] } ∧
  decodeCall defaultCfg [0x72#8, 0x73#8] = { status := .ok, payload := [0xFF#8] } ∧
  decodeCall defaultCfg [0x72#8, 0x75#8] = { status := .ok, payload := [0xFF#8] } ∧
  encodeCall defaultCfg [0xFF#8] = [0x72#8, 0x72#8] ∧
  decodeCall defaultCfg [0x73#8, 0x38#8, 0x57#8, 0x2D#8, 0x22#8] = { status := .ok, payload := [0#8, 0#8, 0#8, 0#8] }

/-- R198: the length of an encoded text: 5 symbols per nonzero full group, 1 per zero group, `n + 1` for a tail of `n` bytes, and 4 for
the markers. -/
def Obligations.EncodedLength : Prop :=
  ∀ (cfg : Cfg) (bytes : List Byte) (q n z : Nat), q = bytes.length / 4 → n = bytes.length % 4 →
    z = ((List.range q).filter fun j => pack ((bytes.drop (4 * j)).take 4) == 0#32).length →
    (encodeContent cfg bytes).length = 5 * (q - z) + 1 * z + (if 0 < n then n + 1 else 0) ∧
    (encodeCall cfg bytes).length = (encodeContent cfg bytes).length + (if cfg.wrap = true then 4 else 0)

/-- The length of a decoded text (R199, decode direction), with and without an envelope, by counting the content: with `z` shorthand
symbols and `n` other symbols there are `z + n / 5` full groups of four bytes, and a tail of `n % 5` symbols, never of one, gives
`n % 5 - 1` bytes; and the scan's registers at the end say the same. -/
def Obligations.DecodedLength : Prop :=
  ∀ (cfg : Cfg) (text content : List Sym) (bytes : List Byte) (z n : Nat),
    (cfg.wrap = false → content = text) → (cfg.wrap = true → content = stripEnvelope text) →
    z = (content.filter fun c => c == 0x7A#8).length → n = (content.filter fun c => c != 0x7A#8).length →
    decodeCall cfg text = { status := .ok, payload := bytes } →
    n % 5 ≠ 1 ∧ bytes.length = 4 * (z + n / 5) + (if 2 ≤ n % 5 then n % 5 - 1 else 0) ∧
    (∀ d, d = content.foldl (scan cfg) decOpen → d.err = none ∧ d.count.val = n % 5 ∧ d.buf.length = 4 * (z + n / 5))

/-- R202: every text gives success or one of the codes 2, 3, 4, 5, never code 1, and code 2 only with an envelope; an encode call always
succeeds. -/
def Obligations.OutcomesOfADecodeCall : Prop :=
  (∀ (cfg : Cfg) (text : List Sym), statusCode (decodeCall cfg text).status ∈ [0#4, 2#4, 3#4, 4#4, 5#4]) ∧
  (∀ (cfg : Cfg) (text : List Sym), cfg.wrap = false → statusCode (decodeCall cfg text).status ≠ 2#4) ∧
  (∀ (s t : State) (bytes : List Byte), s.enc.phase = .idle → runCommands (cmdsEnc bytes) s = .next t →
    ∃ r, t.encRes = s.encRes ++ [r] ∧ statusCode r.status = 0#4)

/-! ### Beats and assembler text -/

/-- R77, R78: an OK record of payload length `L` is `L` `DATA` beats in payload order and one `END_OK` beat; a failed record is the single
`END_ERR` beat with its code. -/
def Obligations.BeatsOfARecord : Prop :=
  (∀ payload : List (BitVec 8),
    recordBeats { status := .ok, payload := payload } = payload.map (fun x => (0#2 ++ x : Beat)) ++ [0x100#10] ∧
    (recordBeats { status := .ok, payload := payload }).length = payload.length + 1) ∧
  (∀ (e : Error) (payload : List (BitVec 8)), recordBeats { status := .error e, payload := payload } = [0x200#10 ||| (errorCode e).setWidth 10]) ∧
  (∀ r₁ r₂ : List Record, channelBeats (r₁ ++ r₂) = channelBeats r₁ ++ channelBeats r₂)

/-- The beats of a channel determine its records, when failed records are empty (R33, R77). -/
def Obligations.BeatsDetermineTheRecords : Prop :=
  ∀ rs rs' : List Record, (∀ r ∈ rs, r.status ≠ .ok → r.payload = []) → (∀ r ∈ rs', r.status ≠ .ok → r.payload = []) →
    channelBeats rs = channelBeats rs' → rs = rs'

/-- A pseudo-instruction expands to BEGIN, one data command per element and END: `n + 2` commands (R80). With it, lines of assembler
text and the words they stand for (R79). The lines of pseudo-instructions (their blanks, commas, quotes and comments) and the lines
that are refused are the model's reading of R79 and R80 (log 10). -/
def Obligations.PseudoInstructionsAndAssemblerText : Prop :=
  (∀ bytes : List Byte, expandPseudo (.encode bytes) = .encBegin :: (bytes.map .encByte ++ [.encEnd]) ∧
    (expandPseudo (.encode bytes)).length = bytes.length + 2) ∧
  (∀ text : List Sym, expandPseudo (.decode text) = .decBegin :: (text.map .decSym ++ [.decEnd]) ∧
    (expandPseudo (.decode text)).length = text.length + 2) ∧
  expandPseudo (.decode (asciiCodes "z!".toList)) = [.decBegin, .decSym 0x7A#8, .decSym 0x21#8, .decEnd] ∧
  assembleLine "ENC_BYTE 0x4D".toList = .ok (some (.encByte 0x4D#8)) ∧ encode (.encByte 0x4D#8) = 0x24D#12 ∧
  assembleLine "DEC_SYM 'z' ; shorthand".toList = .ok (some (.decSym 0x7A#8)) ∧ encode (.decSym 0x7A#8) = 0xA7A#12 ∧
  assembleLine "ENC_BYTE 255".toList = .ok (some (.encByte 0xFF#8)) ∧
  assembleLine "ENC_BYTE 256".toList = .error .badOperand ∧
  assembleLine "enc_end".toList = .error .unknownMnemonic ∧
  assembleLine "  ; only a comment".toList = .ok none ∧
  assembleAnyLine ("DECODE ".toList ++ [doubleQuote] ++ "z!".toList ++ [doubleQuote] ++ " ; two symbols".toList)
    = .ok [.decBegin, .decSym 0x7A#8, .decSym 0x21#8, .decEnd] ∧
  assembleAnyLine "ENCODE 0x4D, 97,'n' , ' '".toList
    = .ok [.encBegin, .encByte 0x4D#8, .encByte 0x61#8, .encByte 0x6E#8, .encByte 0x20#8, .encEnd] ∧
  assembleAnyLine "ENCODE".toList = .ok [.encBegin, .encEnd]
end

