-- ==== Sys2Proof/Laws/State.lean ====
section
/-! SUPPORT. One lemma per field per named update of the state, and what the engines' start values hold. -/

namespace Sys2Proof.Laws

open Sys2Proof.Machine

/-! ### setEnc -/

@[simp] theorem setEnc_cfg (s : State) (e : Encoder) : (s.setEnc e).cfg = s.cfg := rfl
@[simp] theorem setEnc_bufCap (s : State) (e : Encoder) : (s.setEnc e).bufCap = s.bufCap := rfl
@[simp] theorem setEnc_enc (s : State) (e : Encoder) : (s.setEnc e).enc = e := rfl
@[simp] theorem setEnc_dec (s : State) (e : Encoder) : (s.setEnc e).dec = s.dec := rfl
@[simp] theorem setEnc_encRes (s : State) (e : Encoder) : (s.setEnc e).encRes = s.encRes := rfl
@[simp] theorem setEnc_decRes (s : State) (e : Encoder) : (s.setEnc e).decRes = s.decRes := rfl
@[simp] theorem setEnc_input (s : State) (e : Encoder) : (s.setEnc e).input = s.input := rfl

/-! ### setDec -/

@[simp] theorem setDec_cfg (s : State) (d : Decoder) : (s.setDec d).cfg = s.cfg := rfl
@[simp] theorem setDec_bufCap (s : State) (d : Decoder) : (s.setDec d).bufCap = s.bufCap := rfl
@[simp] theorem setDec_enc (s : State) (d : Decoder) : (s.setDec d).enc = s.enc := rfl
@[simp] theorem setDec_dec (s : State) (d : Decoder) : (s.setDec d).dec = d := rfl
@[simp] theorem setDec_encRes (s : State) (d : Decoder) : (s.setDec d).encRes = s.encRes := rfl
@[simp] theorem setDec_decRes (s : State) (d : Decoder) : (s.setDec d).decRes = s.decRes := rfl
@[simp] theorem setDec_input (s : State) (d : Decoder) : (s.setDec d).input = s.input := rfl

/-! ### emitEnc -/

@[simp] theorem emitEnc_cfg (s : State) (r : Record) : (s.emitEnc r).cfg = s.cfg := rfl
@[simp] theorem emitEnc_bufCap (s : State) (r : Record) : (s.emitEnc r).bufCap = s.bufCap := rfl
@[simp] theorem emitEnc_enc (s : State) (r : Record) : (s.emitEnc r).enc = s.enc := rfl
@[simp] theorem emitEnc_dec (s : State) (r : Record) : (s.emitEnc r).dec = s.dec := rfl
@[simp] theorem emitEnc_encRes (s : State) (r : Record) : (s.emitEnc r).encRes = s.encRes ++ [r] := rfl
@[simp] theorem emitEnc_decRes (s : State) (r : Record) : (s.emitEnc r).decRes = s.decRes := rfl
@[simp] theorem emitEnc_input (s : State) (r : Record) : (s.emitEnc r).input = s.input := rfl

/-! ### emitDec -/

@[simp] theorem emitDec_cfg (s : State) (r : Record) : (s.emitDec r).cfg = s.cfg := rfl
@[simp] theorem emitDec_bufCap (s : State) (r : Record) : (s.emitDec r).bufCap = s.bufCap := rfl
@[simp] theorem emitDec_enc (s : State) (r : Record) : (s.emitDec r).enc = s.enc := rfl
@[simp] theorem emitDec_dec (s : State) (r : Record) : (s.emitDec r).dec = s.dec := rfl
@[simp] theorem emitDec_encRes (s : State) (r : Record) : (s.emitDec r).encRes = s.encRes := rfl
@[simp] theorem emitDec_decRes (s : State) (r : Record) : (s.emitDec r).decRes = s.decRes ++ [r] := rfl
@[simp] theorem emitDec_input (s : State) (r : Record) : (s.emitDec r).input = s.input := rfl

/-! ### closeEncode -/

@[simp] theorem closeEncode_cfg (s : State) (r : Record) : (closeEncode r s).cfg = s.cfg := rfl
@[simp] theorem closeEncode_bufCap (s : State) (r : Record) : (closeEncode r s).bufCap = s.bufCap := rfl
@[simp] theorem closeEncode_enc (s : State) (r : Record) : (closeEncode r s).enc = .cleared := rfl
@[simp] theorem closeEncode_dec (s : State) (r : Record) : (closeEncode r s).dec = s.dec := rfl
@[simp] theorem closeEncode_encRes (s : State) (r : Record) : (closeEncode r s).encRes = s.encRes ++ [r] := rfl
@[simp] theorem closeEncode_decRes (s : State) (r : Record) : (closeEncode r s).decRes = s.decRes := rfl
@[simp] theorem closeEncode_input (s : State) (r : Record) : (closeEncode r s).input = s.input := rfl

/-! ### closeDecode -/

@[simp] theorem closeDecode_cfg (s : State) (r : Record) : (closeDecode r s).cfg = s.cfg := rfl
@[simp] theorem closeDecode_bufCap (s : State) (r : Record) : (closeDecode r s).bufCap = s.bufCap := rfl
@[simp] theorem closeDecode_enc (s : State) (r : Record) : (closeDecode r s).enc = s.enc := rfl
@[simp] theorem closeDecode_dec (s : State) (r : Record) : (closeDecode r s).dec = .cleared := rfl
@[simp] theorem closeDecode_encRes (s : State) (r : Record) : (closeDecode r s).encRes = s.encRes := rfl
@[simp] theorem closeDecode_decRes (s : State) (r : Record) : (closeDecode r s).decRes = s.decRes ++ [r] := rfl
@[simp] theorem closeDecode_input (s : State) (r : Record) : (closeDecode r s).input = s.input := rfl

/-! ### takeError -/

@[simp] theorem takeError_cfg (s : State) (e : Error) : (takeError e s).cfg = s.cfg := rfl
@[simp] theorem takeError_bufCap (s : State) (e : Error) : (takeError e s).bufCap = s.bufCap := rfl
@[simp] theorem takeError_enc (s : State) (e : Error) : (takeError e s).enc = s.enc := rfl
@[simp] theorem takeError_dec (s : State) (e : Error) : (takeError e s).dec = .cleared := rfl
@[simp] theorem takeError_encRes (s : State) (e : Error) : (takeError e s).encRes = s.encRes := rfl
@[simp] theorem takeError_decRes (s : State) (e : Error) : (takeError e s).decRes = s.decRes ++ [errorRecord e] := rfl
@[simp] theorem takeError_input (s : State) (e : Error) : (takeError e s).input = s.input := rfl

/-! ### applyReset -/

@[simp] theorem applyReset_cfg (s : State) : (applyReset s).cfg = s.cfg := rfl
@[simp] theorem applyReset_bufCap (s : State) : (applyReset s).bufCap = s.bufCap := rfl
@[simp] theorem applyReset_enc (s : State) : (applyReset s).enc = .cleared := rfl
@[simp] theorem applyReset_dec (s : State) : (applyReset s).dec = .cleared := rfl
@[simp] theorem applyReset_encRes (s : State) : (applyReset s).encRes = [] := rfl
@[simp] theorem applyReset_decRes (s : State) : (applyReset s).decRes = [] := rfl
@[simp] theorem applyReset_input (s : State) : (applyReset s).input = s.input := rfl

/-! ### presentWord -/

@[simp] theorem presentWord_cfg (s : State) (w : CmdWord) : (presentWord s w).cfg = s.cfg := rfl
@[simp] theorem presentWord_bufCap (s : State) (w : CmdWord) : (presentWord s w).bufCap = s.bufCap := rfl
@[simp] theorem presentWord_enc (s : State) (w : CmdWord) : (presentWord s w).enc = s.enc := rfl
@[simp] theorem presentWord_dec (s : State) (w : CmdWord) : (presentWord s w).dec = s.dec := rfl
@[simp] theorem presentWord_encRes (s : State) (w : CmdWord) : (presentWord s w).encRes = s.encRes := rfl
@[simp] theorem presentWord_decRes (s : State) (w : CmdWord) : (presentWord s w).decRes = s.decRes := rfl
@[simp] theorem presentWord_input (s : State) (w : CmdWord) : (presentWord s w).input = .command w :: s.input := rfl

/-! ### resetOf -/

@[simp] theorem resetOf_cfg (cfg : Cfg) (cap : Option Nat) : (State.resetOf cfg cap).cfg = cfg := rfl
@[simp] theorem resetOf_bufCap (cfg : Cfg) (cap : Option Nat) : (State.resetOf cfg cap).bufCap = cap := rfl
@[simp] theorem resetOf_enc (cfg : Cfg) (cap : Option Nat) : (State.resetOf cfg cap).enc = .cleared := rfl
@[simp] theorem resetOf_dec (cfg : Cfg) (cap : Option Nat) : (State.resetOf cfg cap).dec = .cleared := rfl
@[simp] theorem resetOf_encRes (cfg : Cfg) (cap : Option Nat) : (State.resetOf cfg cap).encRes = [] := rfl
@[simp] theorem resetOf_decRes (cfg : Cfg) (cap : Option Nat) : (State.resetOf cfg cap).decRes = [] := rfl
@[simp] theorem resetOf_input (cfg : Cfg) (cap : Option Nat) : (State.resetOf cfg cap).input = [] := rfl

@[simp] theorem encoder_cleared_phase : Encoder.cleared.phase = .idle := rfl
@[simp] theorem encoder_cleared_tuple : Encoder.cleared.tuple = 0#32 := rfl
@[simp] theorem encoder_cleared_count : Encoder.cleared.count = 0 := rfl
@[simp] theorem encoder_cleared_buf : Encoder.cleared.buf = [] := rfl

@[simp] theorem decoder_cleared_phase : Decoder.cleared.phase = .idle := rfl
@[simp] theorem decoder_cleared_tuple : Decoder.cleared.tuple = 0#32 := rfl
@[simp] theorem decoder_cleared_count : Decoder.cleared.count = 0 := rfl
@[simp] theorem decoder_cleared_err : Decoder.cleared.err = none := rfl
@[simp] theorem decoder_cleared_npre : Decoder.cleared.npre = 0 := rfl
@[simp] theorem decoder_cleared_envBad : Decoder.cleared.envBad = false := rfl
@[simp] theorem decoder_cleared_hold0 : Decoder.cleared.hold0 = 0#8 := rfl
@[simp] theorem decoder_cleared_hold1 : Decoder.cleared.hold1 = 0#8 := rfl
@[simp] theorem decoder_cleared_nhold : Decoder.cleared.nhold = 0 := rfl
@[simp] theorem decoder_cleared_buf : Decoder.cleared.buf = [] := rfl

end Sys2Proof.Laws
end

