-- ==== Sys2Proof/Laws/Ops.lean ====
section
/-! SUPPORT. One lemma per shared operation that says once all it can do; the provers cite these instead of unfolding it. -/

namespace Sys2Proof.Laws

open Sys2Proof.Machine

/-! ### Admission and capacity -/

theorem whenEncPhase_eq_next {want : Phase} {s t : State} {r : Result} :
    whenEncPhase want s r = .next t ↔ s.enc.phase = want ∧ r = .next t := by
  unfold whenEncPhase; split <;> simp_all

theorem whenDecPhase_eq_next {want : Phase} {s t : State} {r : Result} :
    whenDecPhase want s r = .next t ↔ s.dec.phase = want ∧ r = .next t := by
  unfold whenDecPhase; split <;> simp_all

theorem whenEncPhase_eq_refused {want : Phase} {s : State} {r : Result} {x : Refusal} :
    whenEncPhase want s r = .refused x ↔
      (s.enc.phase ≠ want ∧ x = .protocolViolation) ∨ (s.enc.phase = want ∧ r = .refused x) := by
  unfold whenEncPhase; split <;> simp_all [eq_comm]

theorem whenDecPhase_eq_refused {want : Phase} {s : State} {r : Result} {x : Refusal} :
    whenDecPhase want s r = .refused x ↔
      (s.dec.phase ≠ want ∧ x = .protocolViolation) ∨ (s.dec.phase = want ∧ r = .refused x) := by
  unfold whenDecPhase; split <;> simp_all [eq_comm]

/-- There is room exactly when the capacity is unbounded, nothing is appended, or the new length is within it (R250). -/
theorem roomFor_iff {cap : Option Nat} {old new : List (BitVec 8)} :
    roomFor cap old new = true ↔ ∀ n, cap = some n → new.length ≤ old.length ∨ new.length ≤ n := by
  cases cap <;> simp [roomFor]

@[simp] theorem roomFor_none (old new : List (BitVec 8)) : roomFor none old new = true := rfl

@[simp] theorem roomFor_self (cap : Option Nat) (buf : List (BitVec 8)) : roomFor cap buf buf = true := by
  simp [roomFor_iff]

theorem storeEnc_eq_next {s t : State} {e : Encoder} :
    storeEnc s e = .next t ↔ roomFor s.bufCap s.enc.buf e.buf = true ∧ t = s.setEnc e := by
  cases h : roomFor s.bufCap s.enc.buf e.buf <;> simp [storeEnc, h, eq_comm]

theorem storeDec_eq_next {s t : State} {d : Decoder} :
    storeDec s d = .next t ↔ roomFor s.bufCap s.dec.buf d.buf = true ∧ t = s.setDec d := by
  cases h : roomFor s.bufCap s.dec.buf d.buf <;> simp [storeDec, h, eq_comm]

theorem storeEnc_eq_refused {s : State} {e : Encoder} {x : Refusal} :
    storeEnc s e = .refused x ↔ roomFor s.bufCap s.enc.buf e.buf = false ∧ x = .bufferFull := by
  cases h : roomFor s.bufCap s.enc.buf e.buf <;> simp [storeEnc, h, eq_comm]

theorem storeDec_eq_refused {s : State} {d : Decoder} {x : Refusal} :
    storeDec s d = .refused x ↔ roomFor s.bufCap s.dec.buf d.buf = false ∧ x = .bufferFull := by
  cases h : roomFor s.bufCap s.dec.buf d.buf <;> simp [storeDec, h, eq_comm]

/-! ### The units -/

@[simp] theorem groupSyms_zero (cfg : Cfg) : groupSyms cfg 0#32 = [shorthandSym] := rfl

theorem groupSyms_of_ne_zero (cfg : Cfg) {t : Tuple} (h : t ≠ 0#32) : groupSyms cfg t = syms5 cfg t := by
  simp [groupSyms, tupleIsZero, h]

@[simp] theorem digits85_length (t : Tuple) : (digits85 t).length = 5 := rfl

@[simp] theorem syms5_length (cfg : Cfg) (t : Tuple) : (syms5 cfg t).length = 5 := rfl

@[simp] theorem unpack_length (t : Tuple) : (unpack t).length = 4 := rfl

theorem tailSyms_length (cfg : Cfg) {n : Nat} (h : n ≤ 4) (t : Tuple) : (tailSyms cfg n t).length = n + 1 := by
  simp [tailSyms]; omega

theorem tailBytes_length (count : Fin 5) (t : Tuple) : (tailBytes count t).length = count.val - 1 := by
  have := count.isLt
  simp only [tailBytes, blockUnpacker, tailIndex, List.length_take, unpack_length]
  omega

/-- The classification of a symbol, by the shorthand test and the inverse lookup (R150). -/
theorem classify_cases (cfg : Cfg) (s : Sym) :
    (s = shorthandSym ∧ classify cfg s = .shorthand) ∨
    (s ≠ shorthandSym ∧ inv cfg s = none ∧ classify cfg s = .invalid) ∨
    (∃ i, s ≠ shorthandSym ∧ inv cfg s = some i ∧ classify cfg s = .digit i) := by
  by_cases h : s = shorthandSym
  · exact .inl ⟨h, by simp [classify, isShorthand, h]⟩
  · cases hi : inv cfg s with
    | none => exact .inr (.inl ⟨h, rfl, by simp [classify, isShorthand, h, hi]⟩)
    | some i => exact .inr (.inr ⟨i, h, rfl, by simp [classify, isShorthand, h, hi]⟩)

/-- The address `POW85[c]` reads is the power `85^(4-c)` (R9). -/
theorem pow85_toNat (c : Fin 5) : (pow85 c).toNat = 85 ^ (4 - c.val) := by
  revert c; decide

/-- An inverse lookup that finds a digit found it at that digit's entry. -/
theorem alpha_of_inv {cfg : Cfg} {s : Sym} {i : Digit} (h : inv cfg s = some i) : alpha cfg i = s := by
  have := List.find?_some h
  simpa using this

end Sys2Proof.Laws
end

