-- ==== Sys2Proof/Laws/Calls.lean ====
section
/-! SUPPORT. The call level by recursion: the closed forms group by group and symbol by symbol, and runs command by command. -/

namespace Sys2Proof.Laws

open Sys2Proof.Machine

/-- The content of a text, four bytes at a time (R190). -/
theorem encodeContent_four (cfg : Cfg) (b0 b1 b2 b3 : Byte) (bs : List Byte) :
    encodeContent cfg (b0 :: b1 :: b2 :: b3 :: bs) = groupSyms cfg (pack [b0, b1, b2, b3]) ++ encodeContent cfg bs := by
  have hq : (b0 :: b1 :: b2 :: b3 :: bs).length / 4 = bs.length / 4 + 1 := by simp; omega
  have hn : (b0 :: b1 :: b2 :: b3 :: bs).length % 4 = bs.length % 4 := by simp; omega
  have hg : ∀ j, fullGroup (b0 :: b1 :: b2 :: b3 :: bs) (j + 1) = fullGroup bs j := by
    intro j
    rw [fullGroup, fullGroup, show 4 * (j + 1) = 4 * j + 4 by omega]
    simp
  have hp : partialGroup (b0 :: b1 :: b2 :: b3 :: bs) = partialGroup bs := by
    rw [partialGroup, partialGroup, hq, show 4 * (bs.length / 4 + 1) = 4 * (bs.length / 4) + 4 by omega]
    simp
  have h0 : fullGroup (b0 :: b1 :: b2 :: b3 :: bs) 0 = [b0, b1, b2, b3] := rfl
  simp only [encodeContent, hq, hn, hp, List.range_succ_eq_map, List.flatMap_cons, List.flatMap_map, hg, h0, List.append_assoc]

@[simp] theorem encodeContent_nil (cfg : Cfg) : encodeContent cfg [] = [] := rfl

/-- The content of a text shorter than a group: its tail (R190). -/
theorem encodeContent_short (cfg : Cfg) {bs : List Byte} (h0 : bs ≠ []) (h : bs.length < 4) :
    encodeContent cfg bs = tailSyms cfg bs.length (pack bs) := by
  have hl : bs.length ≠ 0 := by simpa using h0
  simp [encodeContent, partialGroup, Nat.div_eq_of_lt h, Nat.mod_eq_of_lt h, hl]

/-- Whole groups are encoded on their own (R190). -/
theorem encodeContent_append (cfg : Cfg) (more : List Byte) :
    ∀ (q : Nat) (groups : List Byte), groups.length = 4 * q →
      encodeContent cfg (groups ++ more) = encodeContent cfg groups ++ encodeContent cfg more
  | 0, [], _ => rfl
  | q + 1, b0 :: b1 :: b2 :: b3 :: bs, h => by
    have hbs : bs.length = 4 * q := by simp at h; omega
    simp only [List.cons_append, encodeContent_four, encodeContent_append cfg more q bs hbs, List.append_assoc]
  | _ + 1, [], h | _ + 1, [_], h | _ + 1, [_, _], h | _ + 1, [_, _, _], h => by simp at h <;> omega

/-! ### Runs -/

@[simp] theorem runCommands_nil (s : State) : runCommands [] s = .next s := rfl

/-- A run, command by command: the decoder gives back the command, and the input is as before. -/
theorem runCommands_cons {i : Instr} (hi : decode (encode i) = .ok i) (is : List Instr) (s : State) :
    runCommands (i :: is) s =
      match exec i s with
      | .next t => runCommands is t
      | .fault r => .fault r
      | .refused r => .refused r := by
  have h : offer (.command (encode i)) s = exec i s := by simp [offer, step, nextEvent, hi]
  simp only [runCommands, asEvents, List.map_cons, feed, h]
  cases exec i s <;> rfl

end Sys2Proof.Laws
end

