-- ==== Sys2Proof/Laws/Exec.lean ====
section
/-! SUPPORT. For each meaning, what it says when it answers a next state; for the engine functions, what they keep; for `step`, its
cases. -/

namespace Sys2Proof.Laws

open Sys2Proof.Machine

/-! ### The meanings -/

theorem execEncBegin_eq_next {s t : State} :
    execEncBegin s = .next t ↔ s.enc.phase = .idle ∧ t = s.setEnc (encOpen s.cfg) := by
  rw [execEncBegin, whenEncPhase_eq_next, Host.Outcome.next.injEq, eq_comm (b := t)]

theorem execEncByte_eq_next {b : Byte} {s t : State} :
    execEncByte b s = .next t ↔
      s.enc.phase = .opened ∧ roomFor s.bufCap s.enc.buf (encTake s.cfg s.enc b).buf = true ∧
        t = s.setEnc (encTake s.cfg s.enc b) := by
  simp [execEncByte, whenEncPhase_eq_next, storeEnc_eq_next]

theorem execEncEnd_eq_next {s t : State} :
    execEncEnd s = .next t ↔ s.enc.phase = .opened ∧ t = closeEncode (okRecord (encOutput s.cfg s.enc)) s := by
  rw [execEncEnd, whenEncPhase_eq_next, Host.Outcome.next.injEq, eq_comm (b := t)]

theorem execDecBegin_eq_next {s t : State} :
    execDecBegin s = .next t ↔ s.dec.phase = .idle ∧ t = s.setDec decOpen := by
  rw [execDecBegin, whenDecPhase_eq_next, Host.Outcome.next.injEq, eq_comm (b := t)]

theorem execDecSym_eq_next {sym : Sym} {s t : State} :
    execDecSym sym s = .next t ↔
      s.dec.phase = .opened ∧ roomFor s.bufCap s.dec.buf (decTake s.cfg s.dec sym).buf = true ∧
        t = s.setDec (decTake s.cfg s.dec sym) := by
  simp [execDecSym, whenDecPhase_eq_next, storeDec_eq_next]

theorem execDecEnd_eq_next {s t : State} :
    execDecEnd s = .next t ↔ s.dec.phase = .opened ∧ t = decFinish s := by
  rw [execDecEnd, whenDecPhase_eq_next, Host.Outcome.next.injEq, eq_comm (b := t)]

/-- The record a decode call closes with (R170). -/
def verdictRecord : Except Error (List Byte) → Record
  | .error e => errorRecord e
  | .ok bytes => okRecord bytes

/-- `DEC_END` closes the call with the record of its verdict. -/
theorem decFinish_eq (s : State) : decFinish s = closeDecode (verdictRecord (decVerdict s.cfg s.dec)) s := by
  unfold decFinish
  split <;> rename_i h <;> simp [h, verdictRecord, takeError]

/-! ### The engine functions -/

@[simp] theorem encTake_phase (cfg : Cfg) (e : Encoder) (b : Byte) : (encTake cfg e b).phase = e.phase := by
  unfold encTake; dsimp only; split <;> rfl

@[simp] theorem takeDigit_phase (d : Decoder) (i : Digit) : (takeDigit d i).phase = d.phase := by
  unfold takeDigit; dsimp only; split <;> rfl

@[simp] theorem takeShorthand_phase (d : Decoder) : (takeShorthand d).phase = d.phase := by
  unfold takeShorthand latchScanError; split <;> rfl

/-- What `scan` can do, once (R160). -/
theorem scan_cases (cfg : Cfg) (d : Decoder) (c : Sym) :
    (d.err.isSome ∧ scan cfg d c = d) ∨
    (d.err = none ∧ classify cfg c = .shorthand ∧ d.count = 0 ∧ scan cfg d c = { d with buf := d.buf ++ [0#8, 0#8, 0#8, 0#8] }) ∨
    (d.err = none ∧ classify cfg c = .shorthand ∧ d.count ≠ 0 ∧ scan cfg d c = { d with err := some .shorthandPlacement }) ∨
    (d.err = none ∧ classify cfg c = .invalid ∧ scan cfg d c = { d with err := some .symbol }) ∨
    (∃ i, d.err = none ∧ classify cfg c = .digit i ∧ d.count = 4 ∧
      scan cfg d c = { d with buf := d.buf ++ unpack (accStep d.tuple d.count i), tuple := 0#32, count := 0 }) ∨
    (∃ i, d.err = none ∧ classify cfg c = .digit i ∧ d.count ≠ 4 ∧
      scan cfg d c = { d with tuple := accStep d.tuple d.count i, count := d.count + 1 }) := by
  cases he : d.err with
  | some e => exact .inl ⟨rfl, by simp [scan, scanFailed, he]⟩
  | none =>
    right
    cases hc : classify cfg c with
    | shorthand =>
      by_cases h0 : d.count = 0
      · exact .inl ⟨rfl, rfl, h0, by simp [scan, scanFailed, he, hc, takeShorthand, h0]⟩
      · exact .inr (.inl ⟨rfl, rfl, h0, by simp [scan, scanFailed, he, hc, takeShorthand, h0, latchScanError]⟩)
    | invalid => exact .inr (.inr (.inl ⟨rfl, rfl, by simp [scan, scanFailed, he, hc, latchScanError]⟩))
    | digit i =>
      by_cases h4 : d.count = 4
      · exact .inr (.inr (.inr (.inl ⟨i, rfl, rfl, h4, by simp [scan, scanFailed, he, hc, takeDigit, h4]⟩)))
      · exact .inr (.inr (.inr (.inr ⟨i, rfl, rfl, h4, by simp [scan, scanFailed, he, hc, takeDigit, h4]⟩)))

/-- `scan` keeps the phase and the envelope registers (R164: markers are not its business). -/
theorem scan_keeps (cfg : Cfg) (d : Decoder) (c : Sym) :
    (scan cfg d c).phase = d.phase ∧ (scan cfg d c).npre = d.npre ∧ (scan cfg d c).envBad = d.envBad ∧
      (scan cfg d c).hold0 = d.hold0 ∧ (scan cfg d c).hold1 = d.hold1 ∧ (scan cfg d c).nhold = d.nhold := by
  rcases scan_cases cfg d c with ⟨_, h⟩ | ⟨_, _, _, h⟩ | ⟨_, _, _, h⟩ | ⟨_, _, h⟩ | ⟨i, _, _, _, h⟩ | ⟨i, _, _, _, h⟩ <;>
    rw [h] <;> simp

/-- `scan` appends to the buffer and takes nothing away (R30). -/
theorem scan_buf_prefix (cfg : Cfg) (d : Decoder) (c : Sym) : d.buf <+: (scan cfg d c).buf := by
  rcases scan_cases cfg d c with ⟨_, h⟩ | ⟨_, _, _, h⟩ | ⟨_, _, _, h⟩ | ⟨_, _, h⟩ | ⟨i, _, _, _, h⟩ | ⟨i, _, _, _, h⟩ <;>
    rw [h] <;> simp

/-! ### One step -/

/-- What a step that answers a next state did: the reset event, or a command, executed whole. -/
theorem step_eq_next {s t : State} :
    step s = .next t ↔
      (∃ rest, s.input = .reset :: rest ∧ t = applyReset { s with input := rest }) ∨
      (∃ w rest i, s.input = .command w :: rest ∧ decode w = .ok i ∧ exec i { s with input := rest } = .next t) := by
  unfold step nextEvent
  cases hin : s.input with
  | nil => simp
  | cons e rest =>
    cases e with
    | reset => simp [eq_comm]
    | command w => cases hd : decode w <;> simp [hd]

end Sys2Proof.Laws
end

