-- ==== Sys2Proof/Laws/PerInstr.lean ====
section
/-! SUPPORT. What holds of every command as syntax, one lemma per constructor. -/

namespace Sys2Proof.Laws.EncodedFields

/-- The word of a command splits into the command's fields, and they are well-formed (R71, R72). -/
def Statement (i : Instr) : Prop := fieldsOf (encode i) = i.fields ∧ i.wellFormed = true

theorem encBegin : Statement .encBegin := by unfold Statement; decide

theorem encByte (b : Byte) : Statement (.encByte b) := by
  revert b; unfold Statement; decide +kernel

theorem encEnd : Statement .encEnd := by unfold Statement; decide

theorem decBegin : Statement .decBegin := by unfold Statement; decide

theorem decSym (s : Sym) : Statement (.decSym s) := by
  revert s; unfold Statement; decide +kernel

theorem decEnd : Statement .decEnd := by unfold Statement; decide

end Sys2Proof.Laws.EncodedFields
end

