-- ==== Sys2Proof/Tests/Slice0.lean ====
section
/-! SUPPORT. The package's own tests: words written out from the spec's encodings, ill-formed terms, one or two steps per command with
results from 95_test_vectors.md, and for every statement with hypotheses a witness that meets them. -/

-- One theorem after another, not side by side: the threads of many closed evaluations at once reserve gigabytes of stack.
set_option Elab.async false

namespace Sys2Proof.Tests

open Sys2Proof.Machine

/-! ### Helpers -/

/-- The default instance with the envelope on. -/
def wrapCfg : Cfg := { defaultCfg with wrap := true }

/-- The alphabet of vector V-A8: `z`, then 0x21 to 0x74. -/
def zCfg : Cfg := { defaultCfg with alpha := Vector.ofFn fun i => if i.val = 0 then 0x7A#8 else BitVec.ofNat 8 (0x20 + i.val) }

/-- The encoder engine open, at a tuple and count. -/
def encAt (t : Tuple) (c : Fin 4) : Encoder := { phase := .opened, tuple := t, count := c, buf := [] }

/-- The default instance with an encoder engine. -/
def withEnc (e : Encoder) : State := { State.reset with enc := e }

/-- The decoder engine open, at a tuple and count. -/
def decAt (t : Tuple) (c : Fin 5) : Decoder := { decOpen with tuple := t, count := c }

/-- The default instance with a decoder engine. -/
def withDec (d : Decoder) : State := { State.reset with dec := d }

/-- The enveloped instance with a decoder engine. -/
def withWrapDec (d : Decoder) : State := { State.resetOf wrapCfg none with dec := d }

/-- The decoder engine open with a full delay line, on good prefix symbols. -/
def decHeld (a b : Sym) : Decoder := { decOpen with npre := 2, nhold := 2, hold0 := a, hold1 := b }

/-- What a test looks at in a next state; `none` where the command is refused. -/
def after {α : Type} (r : Result) (look : State → α) : Option α :=
  match r with
  | .next t => some (look t)
  | .fault _ => none
  | .refused _ => none

/-! ### Encoding: words bit by bit from 30_encoding.md R72 -/

theorem test_word_encBegin : decode 0b000100000000#12 = .ok .encBegin := by decide
theorem test_word_encByte : decode 0b001001001101#12 = .ok (.encByte 0x4D#8) := by decide
theorem test_word_encEnd : decode 0b001100000000#12 = .ok .encEnd := by decide
theorem test_word_decBegin : decode 0b100100000000#12 = .ok .decBegin := by decide
theorem test_word_decSym : decode 0b101001111010#12 = .ok (.decSym 0x7A#8) := by decide
theorem test_word_decEnd : decode 0b101100000000#12 = .ok .decEnd := by decide

/-- Vectors V-C7 to V-C10. -/
theorem test_words_reserved :
    decode 0x000#12 = .error .reservedOp ∧ decode 0x0FF#12 = .error .reservedOp ∧ decode 0x101#12 = .error .nonzeroArg ∧
    decode 0xB80#12 = .error .nonzeroArg ∧ decode 0x64D#12 = .error .reservedOp ∧ decode 0xE7A#12 = .error .reservedOp ∧
    decode 0x800#12 = .error .reservedOp := by decide

/-- A table number runs as the first instruction after reset; one too wide for the port does not. -/
theorem test_table_word :
    decodeTableWord 16 0x24D = some (.encByte 0x4D#8) ∧ decodeTableWord 16 0x1100 = none ∧
    after (step (State.reset.withFetchWord 16 0x100)) (fun t => (t.enc.phase, t.input)) = some (.opened, []) := by decide

/-! ### Well-formedness: an ill-formed term for each check -/

theorem test_illformed_rsv : (CmdFields.mk 0#1 1#1 1#2 0#8).wellFormed = false := by decide
theorem test_illformed_fn : (CmdFields.mk 1#1 0#1 0#2 0#8).wellFormed = false := by decide
theorem test_illformed_arg : (CmdFields.mk 1#1 0#1 3#2 0x80#8).wellFormed = false := by decide
theorem test_wellformed_fields : (CmdFields.mk 1#1 0#1 2#2 0x80#8).wellFormed = true := by decide

/-- Vectors V-A2 (length 84) and V-A5 (`!` twice): each fails its own check, and `construct` refuses both. -/
theorem test_illformed_alphabet_length :
    alphabetLengthOk (defaultAlphabet.toList.take 84) = false ∧
    construct (defaultAlphabet.toList.take 84) 0#8 false = .error .invalidAlphabet := by decide +kernel
theorem test_illformed_alphabet_twice :
    alphabetDistinct (defaultAlphabet.toList.take 84 ++ [0x21#8]) = false ∧
    construct (defaultAlphabet.toList.take 84 ++ [0x21#8]) 0#8 false = .error .invalidAlphabet := by decide +kernel
theorem test_valid_cfg : defaultCfg.Valid ∧ wrapCfg.Valid ∧ zCfg.Valid := by decide +kernel

/-! ### The units: 95_test_vectors.md 2.1 to 2.3 -/

/-- `INV` of V-A1: 0x20, 0x21, 0x39, 0x75, 0x7A. -/
theorem test_inv_rom :
    [(invRom defaultCfg)[0x20], (invRom defaultCfg)[0x21], (invRom defaultCfg)[0x39], (invRom defaultCfg)[0x75],
      (invRom defaultCfg)[0x7A]] = [0x00#8, 0x80#8, 0x98#8, 0xD4#8, 0x00#8] := by decide +kernel

/-- V-P2, V-P7, V-U2. -/
theorem test_pack_unpack :
    packStep 0x4D000000#32 1 0x61#8 = 0x4D610000#32 ∧ pack [0x12#8, 0x34#8] = 0x12340000#32 ∧
    unpack 0x12345678#32 = [0x12#8, 0x34#8, 0x56#8, 0x78#8] := by decide

/-- V-G9, V-G10. -/
theorem test_digits :
    digits85 0xDEADBEEF#32 = [71, 48, 28, 45, 59] ∧ digits85 0xFFFFFFFF#32 = [82, 23, 54, 12, 0] := by decide

/-- V-D38, the fifth symbol of `"uuuuu"` (R158); V-D20 and V-D27, tails. -/
theorem test_accumulator_and_tail :
    accStep 0x08780E70#32 4 84 = 0x08780EC4#32 ∧ tailBytes 2 0x4CFACCEB#32 = [0x4D#8] ∧
    tailBytes 4 0x000054AB#32 = [0x00#8, 0x00#8, 0x55#8] := by decide

/-- V-B1, V-B4. -/
theorem test_beats :
    recordBeats (okRecord [0x39#8, 0x60#8]) = [0x039#10, 0x060#10, 0x100#10] ∧
    recordBeats (errorRecord .invalidShorthandPlacement) = [0x203#10] := by decide

/-- A character literal may be `;`, and a comment follows it (R79); white space before an operand is required (log 10). -/
theorem test_assembler :
    assembleLine "DEC_SYM ';' ; x".toList = .ok (some (.decSym 0x3B#8)) ∧
    assembleLine "DEC_SYM'z'".toList = .error .unknownMnemonic := by decide

/-- The source text of program P1 (95_test_vectors.md), and a list that ends in a comma (R80). -/
theorem test_pseudo_line :
    assembleAnyLine "ENCODE 0x4D, 0x61, 0x6E, 0x20, 0, 0, 0, 0, 0x4D".toList
      = .ok (cmdsEnc [0x4D#8, 0x61#8, 0x6E#8, 0x20#8, 0#8, 0#8, 0#8, 0#8, 0x4D#8]) ∧
    assembleAnyLine "ENCODE 1,".toList = .error .badOperand := by decide

/-! ### One step per command -/

/-- P6, step 1. -/
theorem test_encBegin_wrap :
    after (exec .encBegin (State.resetOf wrapCfg none)) (fun t => (t.enc.phase, t.enc.buf)) = some (.opened, [0x3C#8, 0x7E#8]) := by
  decide

/-- P1, step 5: the fourth byte (V-E2). -/
theorem test_encByte_fourth :
    after (exec (.encByte 0x20#8) (withEnc (encAt 0x4D616E00#32 3))) (fun t => (t.enc.tuple, t.enc.count, t.enc.buf))
      = some (0#32, 0, [0x39#8, 0x6A#8, 0x71#8, 0x6F#8, 0x5E#8]) := by decide +kernel

/-- P1, step 9: four zero bytes give the shorthand (V-E9). -/
theorem test_encByte_zero_group :
    after (exec (.encByte 0#8) (withEnc (encAt 0#32 3))) (fun t => t.enc.buf) = some [0x7A#8] := by decide

/-- V-E3: a tail of one byte. -/
theorem test_encEnd_tail :
    after (exec .encEnd (withEnc (encAt 0x4D000000#32 1))) (fun t => (t.enc.phase, t.encRes))
      = some (.idle, [⟨.ok, [0x39#8, 0x60#8]⟩]) := by decide +kernel

/-- V-E7: a zero tail of two bytes never gives the shorthand. -/
theorem test_encEnd_zero_tail :
    after (exec .encEnd (withEnc (encAt 0#32 2))) (fun t => t.encRes) = some [⟨.ok, [0x21#8, 0x21#8, 0x21#8]⟩] := by
  decide +kernel

/-- 42_decode.md R163. -/
theorem test_decBegin :
    after (exec .decBegin State.reset) (fun t => (t.dec.phase, t.dec.buf, t.dec.npre)) = some (.opened, [], 0) := by decide

/-- R166, worked example: the fifth symbol of V-D3. -/
theorem test_decSym_fifth :
    after (exec (.decSym 0x5E#8) (withDec (decAt 0x4D616DE3#32 4))) (fun t => (t.dec.tuple, t.dec.count, t.dec.buf))
      = some (0#32, 0, [0x4D#8, 0x61#8, 0x6E#8, 0x20#8]) := by decide +kernel

/-- P2, step 6: the symbol scanned is the one received two commands earlier. -/
theorem test_decSym_delay_line :
    after (exec (.decSym 0x71#8) (withWrapDec (decHeld 0x39#8 0x6A#8)))
        (fun t => (t.dec.hold0, t.dec.hold1, t.dec.tuple, t.dec.count)) = some (0x6A#8, 0x71#8, 0x4AAC7098#32, 1) := by
  decide +kernel

/-- V-D20: a tail of two symbols. -/
theorem test_decEnd_tail :
    after (exec .decEnd (withDec (decAt 0x4CFACCEB#32 2))) (fun t => (t.dec.phase, t.decRes)) = some (.idle, [⟨.ok, [0x4D#8]⟩]) := by
  decide

/-- R169: the envelope wins over a scan error. -/
theorem test_decEnd_envelope_first :
    after (exec .decEnd (withWrapDec { decHeld 0x39#8 0x7A#8 with err := some .symbol })) (fun t => t.decRes)
      = some [⟨.error .malformedEnvelope, []⟩] := by decide

/-! ### Witnesses: for every statement with hypotheses, terms that meet them, clause by clause -/

/-- A machine with something presented. -/
def presented (e : HostEvent) : State := { State.reset with input := [e] }

theorem witness_DecoderFollowsOpcodeMap :
    (OpcodeRow.mk "DEC_SYM" 0xA00#12 0xF00#12 ∈ opcodeTable ∧ 0xAFF#12 &&& 0xF00#12 = 0xA00#12) ∧
    (∀ r ∈ opcodeTable, 0x0FF#12 &&& r.mask ≠ r.pattern) := by decide

theorem witness_ReservedWordsAreRefused :
    (presented (.command 0x101#12)).input = .command 0x101#12 :: [] ∧ decode 0x101#12 = .error .nonzeroArg ∧
    (presented (.command 0xFFF#12)).input = .command 0xFFF#12 :: [] ∧ decode 0xFFF#12 = .error .reservedOp := by decide

theorem witness_StepExecutesTheDecodedCommand :
    ((presented (.command 0x900#12)).input = .command 0x900#12 :: [] ∧ decode 0x900#12 = .ok .decBegin) ∧
    State.reset.input = [] := by decide

theorem witness_ResetEventResetsEverything : (presented .reset).input = .reset :: [] := rfl

theorem witness_AdmissionIsByOwnPhaseOnly :
    State.reset.bufCap = none ∧
    ((∃ t, exec .decBegin (withEnc (encAt 0#32 3)) = .next t) ∧ (withEnc (encAt 0#32 3)).enc.phase = .opened ∧
      Instr.decBegin ≠ .encEnd) ∧
    ((∃ t, exec .encBegin (withDec (decAt 0#32 4)) = .next t) ∧ (withDec (decAt 0#32 4)).dec.phase = .opened ∧
      Instr.encBegin ≠ .decEnd) :=
  ⟨rfl, ⟨⟨_, rfl⟩, rfl, by decide⟩, ⟨_, rfl⟩, rfl, by decide⟩

theorem witness_RefusalsHaveTwoCausesAndChangeNothing :
    State.reset.bufCap = none ∧ offer (.command 0x300#12) State.reset = .refused .protocolViolation := ⟨rfl, rfl⟩

/-- A shorthand symbol with a capacity of 3 (too small) and of 4 (just enough). -/
theorem witness_CapacityRefusesTheExceedingDataCommand :
    (∃ t, exec (.decSym 0x7A#8) { withDec decOpen with bufCap := none } = .next t ∧
      (ownBuf (.decSym 0x7A#8) { withDec decOpen with bufCap := some 3 }).length < (ownBuf (.decSym 0x7A#8) t).length ∧
      3 < (ownBuf (.decSym 0x7A#8) t).length ∧ ¬ 4 < (ownBuf (.decSym 0x7A#8) t).length) ∧
    isData (.decSym 0x7A#8) = true ∧ ({ withDec decOpen with bufCap := some 3 } : State).bufCap = some 3 :=
  ⟨⟨_, rfl, by decide, by decide, by decide⟩, rfl, rfl⟩

theorem witness_ConstructAcceptsExactlyValidAlphabets :
    (defaultAlphabet.toList.length = 85 ∧ defaultAlphabet.toList.Nodup) ∧
    ¬ ((defaultAlphabet.toList.take 84).length = 85 ∧ (defaultAlphabet.toList.take 84).Nodup) := by decide +kernel

theorem witness_LookupsAreInverse : defaultCfg.Valid ∧ inv defaultCfg 0x75#8 = some 84 := by decide +kernel

theorem witness_InverseRomIsBuiltRight : defaultCfg.Valid ∧ 0x7A#8 ∉ defaultCfg.alpha.toList := by decide +kernel

theorem witness_ConfigurationNeverChanges : ∃ t, step (presented (.command 0x100#12)) = .next t := ⟨_, rfl⟩

theorem witness_SpecialCharacterIsNeverRead :
    (∃ t, exec .encBegin State.reset = .next t) ∧ exec .encEnd State.reset = .refused .protocolViolation := ⟨⟨_, rfl⟩, rfl⟩

theorem witness_PackIsBigEndian : ([] : List Byte).length ≤ 4 ∧ [1#8, 2#8, 3#8, 4#8].length ≤ 4 := by decide

theorem witness_DigitRanges : digits85 0xFFFFFFFF#32 = digits85 0xFFFFFFFF#32 := rfl

theorem witness_GroupSymbols : (1#32 : Tuple) ≠ 0#32 := by decide

theorem witness_ShorthandOnlyForZeroGroups :
    0x7A#8 ∉ defaultCfg.alpha.toList ∧ ([] : List Byte).length % 4 = 0 ∧ [1#8, 2#8, 3#8, 4#8].length % 4 = 0 ∧
    ([0#8, 0#8, 0#8, 1#8].length = 4 ∧ ([0#8, 0#8, 0#8, 1#8] : List Byte) ≠ [0#8, 0#8, 0#8, 0#8]) ∧
    1 ≤ [0#8].length ∧ [0#8, 0#8, 0#8].length ≤ 3 := by decide +kernel

theorem witness_EncBeginOpensACall :
    ((State.resetOf wrapCfg none).enc.phase = .idle ∧ (State.resetOf wrapCfg none).cfg.wrap = true) ∧
    (State.reset.enc.phase = .idle ∧ State.reset.cfg.wrap = false) ∧ (withEnc (encAt 0#32 0)).enc.phase = .opened := by decide

/-- The fourth byte of a nonzero group with a capacity of exactly five symbols. -/
theorem witness_EncByteTakesAByte :
    ((withEnc (encAt 0#32 2)).enc.phase = .opened ∧ (withEnc (encAt 0#32 2)).enc.count ≠ 3) ∧
    ((withEnc (encAt 0x4D616E00#32 3)).enc.count = 3 ∧
      (groupSyms defaultCfg ((encAt 0x4D616E00#32 3).tuple ||| (0x20#8).setWidth 32)).length ≤ 5) ∧
    State.reset.enc.phase = .idle := by decide +kernel

theorem witness_EncEndPublishesTheRecord :
    (withEnc (encAt 0#32 0)).enc.phase = .opened ∧ (withEnc (encAt 0x4D616E00#32 3)).enc.phase = .opened ∧
    State.reset.enc.phase = .idle := by decide

theorem witness_PackerHoldsThePartialGroup : State.reset.enc.phase = .idle ∧ State.reset.bufCap = none := by decide

theorem witness_EncodeCannotFail :
    Instr.encEnd.isEncoder = true ∧ (withEnc (encAt 0#32 3)).bufCap = none ∧ phaseAdmits .encEnd (withEnc (encAt 0#32 3)) ∧
    ∃ t, exec .encEnd (withEnc (encAt 0#32 3)) = .next t := ⟨rfl, rfl, rfl, _, rfl⟩

theorem witness_ClassifyTestsTheShorthandFirst :
    ((0x21#8 : Sym) ≠ 0x7A#8 ∧ inv defaultCfg 0x21#8 = some 0) ∧ ((0x7E#8 : Sym) ≠ 0x7A#8 ∧ inv defaultCfg 0x7E#8 = none) ∧
    (0x21 ≤ (0x75#8 : Sym).toNat ∧ (0x75#8 : Sym).toNat ≤ 0x75) ∧
    ((0x20#8 : Sym).toNat < 0x21 ∧ 0x75 < (0x76#8 : Sym).toNat) := by decide +kernel

theorem witness_HornerFormAgrees :
    ([84, 84, 84, 84, 84] : List Digit).length = 5 ∧ 2 ≤ ([0, 1] : List Digit).length ∧ ([0, 1, 2, 3] : List Digit).length ≤ 4 := by
  decide

theorem witness_UnpackInvertsPack : [0#8, 0#8, 0#8, 1#8].length = 4 := by decide

theorem witness_TailBytesAddTheBias : 2 ≤ (2 : Fin 5).val ∧ 2 ≤ (4 : Fin 5).val := by decide

theorem witness_TailOfAPartialGroupGivesItsBytes :
    (1 ≤ [0xFF#8].length ∧ [0xFF#8].length ≤ 3 ∧ (2 : Fin 5).val = [0xFF#8].length + 1) ∧
    (1 ≤ [0xFF#8, 0#8, 1#8].length ∧ [0xFF#8, 0#8, 1#8].length ≤ 3 ∧ (4 : Fin 5).val = [0xFF#8, 0#8, 1#8].length + 1) := by decide

theorem witness_ScanOfOneSymbol :
    ({ decOpen with err := some .symbol } : Decoder).err ≠ none ∧
    ((decAt 0#32 4).err = none ∧ classify defaultCfg 0x7A#8 = .shorthand ∧ (decAt 0#32 4).count ≠ 0) ∧
    ((decAt 0#32 0).err = none ∧ (decAt 0#32 0).count = 0) ∧ classify defaultCfg 0x76#8 = .invalid ∧
    (classify defaultCfg 0x75#8 = .digit 84 ∧ (decAt 0#32 4).count = 4 ∧ (decAt 0#32 3).count ≠ 4) := by decide +kernel

theorem witness_DecBeginOpensACall : State.reset.dec.phase = .idle ∧ (withDec decOpen).dec.phase = .opened := by decide

theorem witness_DecSymTakesASymbol_plain :
    (withDec decOpen).dec.phase = .opened ∧ (withDec decOpen).cfg.wrap = false ∧ (withDec decOpen).bufCap = none ∧
    State.reset.dec.phase = .idle := by decide

theorem witness_DecSymTakesASymbol_enveloped :
    ((withWrapDec decOpen).dec.phase = .opened ∧ (withWrapDec decOpen).cfg.wrap = true ∧ (withWrapDec decOpen).dec.npre = 0) ∧
    (withWrapDec { decOpen with npre := 1 }).dec.npre = 1 ∧
    ((withWrapDec { decOpen with npre := 2 }).dec.npre = 2 ∧ (withWrapDec { decOpen with npre := 2 }).dec.nhold = 0) ∧
    (withWrapDec { decOpen with npre := 2, nhold := 1 }).dec.nhold = 1 ∧
    ((withWrapDec (decHeld 0x39#8 0x6A#8)).dec.npre = 2 ∧ (withWrapDec (decHeld 0x39#8 0x6A#8)).dec.nhold = 2 ∧
      (withWrapDec (decHeld 0x39#8 0x6A#8)).bufCap = none) := by decide

theorem witness_DecEndPublishesTheRecord :
    (∀ r, closeDecode r (withDec decOpen) = { withDec decOpen with decRes := (withDec decOpen).decRes ++ [r], dec := .cleared }) ∧
    ((withWrapDec decOpen).dec.phase = .opened ∧ envOk wrapCfg decOpen = false) ∧
    (envOk defaultCfg { decOpen with err := some .shorthandPlacement } = true) ∧
    (envOk wrapCfg { decHeld 0x7E#8 0x3E#8 with err := some .symbol } = true) ∧
    (envOk defaultCfg decOpen = true ∧ decOpen.err = none ∧ decOpen.count = 0) ∧
    ((decAt 0#32 1).err = none ∧ (decAt 0#32 1).count = 1) ∧ (2 ≤ (decAt 0#32 2).count.val ∧ 2 ≤ (decAt 0#32 4).count.val) ∧
    State.reset.dec.phase = .idle := ⟨fun _ => rfl, by decide⟩

theorem witness_FirstScanErrorIsKept :
    (withDec { decOpen with err := some .symbol }).dec.phase = .opened ∧
    (withDec { decOpen with err := some .symbol }).dec.err = some .symbol := by decide

theorem witness_EnvelopeCheckIsStreamed :
    (State.resetOf wrapCfg none).dec.phase = .idle ∧ (State.resetOf wrapCfg none).cfg.wrap = true ∧
    (State.resetOf wrapCfg none).bufCap = none := by decide

theorem witness_EnvelopeVerdict :
    (State.resetOf wrapCfg none).dec.phase = .idle ∧ (State.resetOf wrapCfg none).cfg.wrap = true ∧
    ∃ t, runCommands (.decBegin :: [0x3C#8, 0x7E#8, 0x7E#8, 0x3E#8].map .decSym) (State.resetOf wrapCfg none) = .next t :=
  ⟨rfl, rfl, _, rfl⟩

/-- V-D82 and, under a good envelope, V-D85 (`9z`), V-D86 (a space), V-D84 (`9`), V-D62 (`z`). -/
theorem witness_CallErrorPriority :
    (wrapCfg.wrap = true ∧ envelopeGood [0x3C#8, 0x7E#8, 0x39#8, 0x7A#8] = false) ∧
    (envelopeGood [0x3C#8, 0x7E#8, 0x39#8, 0x7A#8, 0x7E#8, 0x3E#8] = true ∧
      ([0x3C#8, 0x7E#8, 0x39#8, 0x7A#8, 0x7E#8, 0x3E#8].drop 2).take 2 = [0x39#8] ++ 0x7A#8 :: [] ∧
      ([0x39#8].foldl (scan wrapCfg) decOpen).err = none ∧ ([0x39#8].foldl (scan wrapCfg) decOpen).count ≠ 0) ∧
    ((0x20#8 : Sym) ≠ 0x7A#8 ∧ inv wrapCfg 0x20#8 = none ∧ decOpen.err = none) ∧
    ([0x39#8].foldl (scan wrapCfg) decOpen).count = 1 ∧
    (([0x7A#8].foldl (scan wrapCfg) decOpen).err = none ∧ ([0x7A#8].foldl (scan wrapCfg) decOpen).count ≠ 1) ∧
    defaultCfg.wrap = false := by decide +kernel

theorem witness_NoPartialResults :
    (∃ t, exec (.decSym 0x7A#8) (withDec decOpen) = .next t) ∧ ∃ t, exec .decEnd (withDec (decAt 0#32 1)) = .next t :=
  ⟨⟨_, rfl⟩, _, rfl⟩

theorem witness_DataCommandsFrame :
    (∃ t, exec (.encByte 0#8) (withEnc (encAt 0#32 3)) = .next t) ∧ (∃ t, exec (.decSym 0x7A#8) (withDec decOpen) = .next t) ∧
    (withDec decOpen).cfg.wrap = false ∧
    ((withWrapDec decOpen).cfg.wrap = true ∧ (withWrapDec decOpen).dec.nhold ≠ 2 ∧
      ∃ t, exec (.decSym 0x3C#8) (withWrapDec decOpen) = .next t) :=
  ⟨⟨_, rfl⟩, ⟨_, rfl⟩, rfl, rfl, by decide, _, rfl⟩

theorem witness_EnginesAreIndependent :
    Instr.encBegin.isEncoder = true ∧ Instr.decBegin.isEncoder = false ∧ Instr.encBegin.isEncoder ≠ Instr.decBegin.isEncoder ∧
    ∃ t u, exec .encBegin State.reset = .next t ∧ exec .decBegin t = .next u := ⟨rfl, rfl, by decide, _, _, rfl, rfl⟩

theorem witness_IdleRegistersCannotMatter :
    Instr.encBegin.isEncoder = true ∧ State.reset.enc.phase = .idle ∧ ({ encAt 7#32 3 with phase := .idle } : Encoder).phase = .idle ∧
    Instr.decBegin.isEncoder = false ∧ State.reset.dec.phase = .idle ∧ ({ decAt 7#32 4 with phase := .idle } : Decoder).phase = .idle := by
  decide

theorem witness_InvariantHoldsAtReset : zCfg.Valid ∧ (some 1 : Option Nat) ≠ some 0 := by decide +kernel

/-- A state in the middle of an encode call satisfies the invariant and takes a step. -/
theorem witness_EveryStepKeepsTheInvariant :
    MachineInv { withEnc (encAt 0x4D616E00#32 3) with input := [.command 0x220#12] } ∧
    ∃ t, step { withEnc (encAt 0x4D616E00#32 3) with input := [.command 0x220#12] } = .next t :=
  ⟨⟨by decide +kernel, by decide, by decide, by decide, by decide, by decide, by decide, by decide⟩, _, rfl⟩

theorem witness_EncodeCallGivesTheClosedForm : State.reset.enc.phase = .idle ∧ State.reset.bufCap = none := by decide

theorem witness_DecodeCallGivesTheClosedForm :
    (State.resetOf wrapCfg none).dec.phase = .idle ∧ (State.resetOf wrapCfg none).bufCap = none := by decide

theorem witness_InterleavingDoesNotDisturbACall :
    State.reset.bufCap = none ∧
    (∃ t, runCommands [.encBegin, .decBegin, .encByte 0#8, .decSym 0x7A#8, .encEnd, .decEnd] State.reset = .next t) ∧
    encoderPart [.encBegin, .decBegin, .encByte 0#8, .decSym 0x7A#8, .encEnd, .decEnd] = cmdsEnc [0#8] ∧
    decoderPart [.encBegin, .decBegin, .encByte 0#8, .decSym 0x7A#8, .encEnd, .decEnd] = cmdsDec [0x7A#8] ∧
    State.reset.enc.phase = .idle ∧ State.reset.dec.phase = .idle := ⟨rfl, ⟨_, rfl⟩, by decide⟩

theorem witness_LegalOrderIsWhatRunsToCompletion :
    LegalOrder [.encBegin, .decBegin, .encEnd, .decEnd] [[]] [[]] ∧
    (∃ o, runEnd defaultCfg none (asEvents [.encBegin, .encEnd]) = .complete o) ∧
    ¬ ∃ more bytes texts, LegalOrder ([.encEnd] ++ more) bytes texts := by
  refine ⟨by simp [LegalOrder, encoderPart, decoderPart, Instr.isEncoder, cmdsEnc, cmdsDec], ⟨_, rfl⟩, ?_⟩
  rintro ⟨more, bytes, texts, h, -⟩
  cases bytes <;> simp [encoderPart, Instr.isEncoder, cmdsEnc] at h

theorem witness_RecordsDependOnConfigurationAndCallOnly :
    State.reset.cfg = (withDec decOpen).cfg ∧ State.reset.bufCap = (withDec decOpen).bufCap ∧
    (∃ t₁, runCommands [.encBegin, .encEnd] State.reset = .next t₁) ∧
    (∃ t₂, runCommands [.encBegin, .decEnd, .encEnd] (withDec decOpen) = .next t₂) ∧
    State.reset.enc.phase = .idle ∧ (withDec decOpen).enc.phase = .idle ∧
    encoderPart [.encBegin, .encEnd] = encoderPart [.encBegin, .decEnd, .encEnd] := ⟨rfl, rfl, ⟨_, rfl⟩, ⟨_, rfl⟩, by decide⟩

theorem witness_RecordsDependOnConfigurationAndCallOnly_decoder :
    State.reset.cfg = (withEnc (encAt 0#32 1)).cfg ∧ State.reset.bufCap = (withEnc (encAt 0#32 1)).bufCap ∧
    (∃ t₁, runCommands [.decBegin, .decEnd] State.reset = .next t₁) ∧
    (∃ t₂, runCommands [.decBegin, .encEnd, .decEnd] (withEnc (encAt 0#32 1)) = .next t₂) ∧
    State.reset.dec.phase = .idle ∧ (withEnc (encAt 0#32 1)).dec.phase = .idle ∧
    decoderPart [.decBegin, .decEnd] = decoderPart [.decBegin, .encEnd, .decEnd] := ⟨rfl, rfl, ⟨_, rfl⟩, ⟨_, rfl⟩, by decide⟩

/-- V-D91's alphabet has `z` at index 0; the tuple 1 is nonzero and its first digit is 0. -/
theorem witness_RoundTrip :
    (wrapCfg.Valid ∧ 0x7A#8 ∉ wrapCfg.alpha.toList) ∧
    (zCfg.Valid ∧ alpha zCfg 0 = 0x7A#8 ∧ [0#8, 0#8, 0#8, 1#8].length = 4 ∧ pack [0#8, 0#8, 0#8, 1#8] ≠ 0#32 ∧
      digits85 (pack [0#8, 0#8, 0#8, 1#8]) = 0 :: [0, 0, 0, 1]) := by decide +kernel

theorem witness_ReencodingAnEncodedText :
    defaultCfg.Valid ∧ 0x7A#8 ∉ defaultCfg.alpha.toList ∧ [0x72#8, 0x72#8] = encodeCall defaultCfg [0xFF#8] ∧
    decodeCall defaultCfg [0x72#8, 0x72#8] = { status := .ok, payload := [0xFF#8] } := by decide +kernel

theorem witness_EncodedLength :
    0 = ([] : List Byte).length / 4 ∧ 3 = [0#8, 0#8, 0#8].length % 4 ∧
    1 = ((List.range 1).filter fun j => pack (([0#8, 0#8, 0#8, 0#8].drop (4 * j)).take 4) == 0#32).length := by decide

/-- `z!!` and, in an envelope, `<~z!!~>`: one shorthand symbol and a tail of two. -/
theorem witness_DecodedLength :
    (defaultCfg.wrap = false ∧
      decodeCall defaultCfg [0x7A#8, 0x21#8, 0x21#8] = { status := .ok, payload := [0#8, 0#8, 0#8, 0#8, 0#8] }) ∧
    (wrapCfg.wrap = true ∧
      [0x7A#8, 0x21#8, 0x21#8] = stripEnvelope [0x3C#8, 0x7E#8, 0x7A#8, 0x21#8, 0x21#8, 0x7E#8, 0x3E#8] ∧
      decodeCall wrapCfg [0x3C#8, 0x7E#8, 0x7A#8, 0x21#8, 0x21#8, 0x7E#8, 0x3E#8]
        = { status := .ok, payload := [0#8, 0#8, 0#8, 0#8, 0#8] }) ∧
    1 = ([0x7A#8, 0x21#8, 0x21#8].filter fun c => c == 0x7A#8).length ∧
    2 = ([0x7A#8, 0x21#8, 0x21#8].filter fun c => c != 0x7A#8).length := by
  decide +kernel

theorem witness_OutcomesOfADecodeCall :
    defaultCfg.wrap = false ∧ State.reset.enc.phase = .idle ∧ ∃ t, runCommands (cmdsEnc [0#8]) State.reset = .next t :=
  ⟨rfl, rfl, _, rfl⟩

theorem witness_BeatsDetermineTheRecords :
    (∀ r ∈ [errorRecord .truncatedBlock, okRecord [1#8]], r.status ≠ .ok → r.payload = []) ∧
    channelBeats [errorRecord .truncatedBlock, okRecord [1#8]] = channelBeats [errorRecord .truncatedBlock, okRecord [1#8]] := by decide

end Sys2Proof.Tests
end

/-! PROOF. The two engines are independent (20_memory.md R65): a command changes its own engine and channel only, its outcome does not
depend on the other engine's, and so commands of different engines commute. -/

namespace Sys2Proof.Proofs

open Sys2Proof.Machine Sys2Proof.Laws

section

variable {i j : Instr} {s t u : State}

/-! ### Frames -/

/-- An accepted encoder command changes the encoder engine and `ENC_RES` only. -/
theorem exec_encoder_frame (hi : i.isEncoder = true) (h : exec i s = .next t) :
    ∃ e rs, t = { s with enc := e, encRes := rs } := by
  cases i with
  | encBegin => exact ⟨_, _, (execEncBegin_eq_next.mp h).2⟩
  | encByte b =>
    obtain ⟨-, -, ht⟩ := execEncByte_eq_next.mp h
    exact ⟨_, _, ht⟩
  | encEnd => exact ⟨_, _, (execEncEnd_eq_next.mp h).2⟩
  | decBegin | decSym _ | decEnd => cases hi

/-- An accepted decoder command changes the decoder engine and `DEC_RES` only. -/
theorem exec_decoder_frame (hi : i.isEncoder = false) (h : exec i s = .next t) :
    ∃ d rs, t = { s with dec := d, decRes := rs } := by
  cases i with
  | decBegin => exact ⟨_, _, (execDecBegin_eq_next.mp h).2⟩
  | decSym sym =>
    obtain ⟨-, -, ht⟩ := execDecSym_eq_next.mp h
    exact ⟨_, _, ht⟩
  | decEnd => exact ⟨_, _, (execDecEnd_eq_next.mp h).2.trans (decFinish_eq s)⟩
  | encBegin | encByte _ | encEnd => cases hi

/-! ### The outcome does not depend on the other engine -/

/-- An encoder command is accepted, with the same effect, whatever the decoder engine and `DEC_RES` hold. -/
theorem exec_encoder_ignores_decoder (hi : i.isEncoder = true) (h : exec i s = .next t) (d : Decoder) (rs : List Record) :
    exec i { s with dec := d, decRes := rs } = .next { t with dec := d, decRes := rs } := by
  cases i with
  | encBegin =>
    obtain ⟨hphase, rfl⟩ := execEncBegin_eq_next.mp h
    exact execEncBegin_eq_next.mpr ⟨hphase, rfl⟩
  | encByte b =>
    obtain ⟨hphase, hroom, rfl⟩ := execEncByte_eq_next.mp h
    exact execEncByte_eq_next.mpr ⟨hphase, hroom, rfl⟩
  | encEnd =>
    obtain ⟨hphase, rfl⟩ := execEncEnd_eq_next.mp h
    exact execEncEnd_eq_next.mpr ⟨hphase, rfl⟩
  | decBegin | decSym _ | decEnd => cases hi

/-- A decoder command is accepted, with the same effect, whatever the encoder engine and `ENC_RES` hold. -/
theorem exec_decoder_ignores_encoder (hi : i.isEncoder = false) (h : exec i s = .next t) (e : Encoder) (rs : List Record) :
    exec i { s with enc := e, encRes := rs } = .next { t with enc := e, encRes := rs } := by
  cases i with
  | decBegin =>
    obtain ⟨hphase, rfl⟩ := execDecBegin_eq_next.mp h
    exact execDecBegin_eq_next.mpr ⟨hphase, rfl⟩
  | decSym sym =>
    obtain ⟨hphase, hroom, rfl⟩ := execDecSym_eq_next.mp h
    exact execDecSym_eq_next.mpr ⟨hphase, hroom, rfl⟩
  | decEnd =>
    obtain ⟨hphase, rfl⟩ := execDecEnd_eq_next.mp h
    refine execDecEnd_eq_next.mpr ⟨hphase, ?_⟩
    rw [decFinish_eq, decFinish_eq]
    rfl
  | encBegin | encByte _ | encEnd => cases hi

/-! ### Commutation -/

/-- A decoder command may be moved before the encoder command it follows: the state between is `s` with the decoder's half of `u`. -/
theorem exec_decoder_before_encoder (hi : i.isEncoder = true) (hj : j.isEncoder = false)
    (hst : exec i s = .next t) (htu : exec j t = .next u) : ∃ v, exec j s = .next v ∧ exec i v = .next u := by
  obtain ⟨e, es, rfl⟩ := exec_encoder_frame hi hst
  obtain ⟨d, ds, rfl⟩ := exec_decoder_frame hj htu
  exact ⟨{ s with dec := d, decRes := ds }, exec_decoder_ignores_encoder hj htu s.enc s.encRes,
    exec_encoder_ignores_decoder hi hst d ds⟩

/-- An encoder command may be moved before the decoder command it follows: the state between is `s` with the encoder's half of `u`. -/
theorem exec_encoder_before_decoder (hi : i.isEncoder = false) (hj : j.isEncoder = true)
    (hst : exec i s = .next t) (htu : exec j t = .next u) : ∃ v, exec j s = .next v ∧ exec i v = .next u := by
  obtain ⟨d, ds, rfl⟩ := exec_decoder_frame hi hst
  obtain ⟨e, es, rfl⟩ := exec_encoder_frame hj htu
  exact ⟨{ s with enc := e, encRes := es }, exec_encoder_ignores_decoder hj htu s.dec s.decRes,
    exec_decoder_ignores_encoder hi hst e es⟩

end

/-- Settles O42: the frames, the independence of the outcome, and the commutation for either engine going first. -/
theorem enginesAreIndependent : Obligations.EnginesAreIndependent := by
  refine ⟨fun i s t hi h d rs => ⟨exec_encoder_ignores_decoder hi h d rs, ?_⟩,
    fun i s t hi h e rs => ⟨exec_decoder_ignores_encoder hi h e rs, ?_⟩, fun i j s t u hij hst htu => ?_⟩
  · obtain ⟨_, _, rfl⟩ := exec_encoder_frame hi h
    exact ⟨rfl, rfl⟩
  · obtain ⟨_, _, rfl⟩ := exec_decoder_frame hi h
    exact ⟨rfl, rfl⟩
  · cases hi : i.isEncoder with
    | true => exact exec_decoder_before_encoder hi (by simpa [hi] using hij) hst htu
    | false => exact exec_encoder_before_decoder hi (by simpa [hi] using hij) hst htu

end Sys2Proof.Proofs

/-! PROOF. Admission of commands (30_encoding.md R83): what each meaning refuses, and that a call stays open until its own END. -/

namespace Sys2Proof.Proofs

open Sys2Proof.Machine Sys2Proof.Laws

section

variable {i : Instr} {s t : State} {x : Refusal}

/-! ### When a meaning refuses -/

theorem execEncBegin_eq_refused : execEncBegin s = .refused x ↔ s.enc.phase ≠ .idle ∧ x = .protocolViolation := by
  simp [execEncBegin, whenEncPhase_eq_refused]

theorem execEncByte_eq_refused {b : Byte} :
    execEncByte b s = .refused x ↔
      (s.enc.phase ≠ .opened ∧ x = .protocolViolation) ∨
      (s.enc.phase = .opened ∧ roomFor s.bufCap s.enc.buf (encTake s.cfg s.enc b).buf = false ∧ x = .bufferFull) := by
  rw [execEncByte, whenEncPhase_eq_refused, storeEnc_eq_refused]

theorem execEncEnd_eq_refused : execEncEnd s = .refused x ↔ s.enc.phase ≠ .opened ∧ x = .protocolViolation := by
  simp [execEncEnd, whenEncPhase_eq_refused]

theorem execDecBegin_eq_refused : execDecBegin s = .refused x ↔ s.dec.phase ≠ .idle ∧ x = .protocolViolation := by
  simp [execDecBegin, whenDecPhase_eq_refused]

theorem execDecSym_eq_refused {sym : Sym} :
    execDecSym sym s = .refused x ↔
      (s.dec.phase ≠ .opened ∧ x = .protocolViolation) ∨
      (s.dec.phase = .opened ∧ roomFor s.bufCap s.dec.buf (decTake s.cfg s.dec sym).buf = false ∧ x = .bufferFull) := by
  rw [execDecSym, whenDecPhase_eq_refused, storeDec_eq_refused]

theorem execDecEnd_eq_refused : execDecEnd s = .refused x ↔ s.dec.phase ≠ .opened ∧ x = .protocolViolation := by
  simp [execDecEnd, whenDecPhase_eq_refused]

/-- The wrong phase, and nothing else, is a protocol violation. -/
theorem exec_eq_protocolViolation : exec i s = .refused .protocolViolation ↔ ¬ phaseAdmits i s := by
  cases i with
  | encBegin => exact execEncBegin_eq_refused.trans (and_iff_left rfl)
  | encByte b => exact execEncByte_eq_refused.trans (by simp [ownPhase, admittedPhase, Instr.isEncoder])
  | encEnd => exact execEncEnd_eq_refused.trans (and_iff_left rfl)
  | decBegin => exact execDecBegin_eq_refused.trans (and_iff_left rfl)
  | decSym sym => exact execDecSym_eq_refused.trans (by simp [ownPhase, admittedPhase, Instr.isEncoder])
  | decEnd => exact execDecEnd_eq_refused.trans (and_iff_left rfl)

/-- With unbounded buffers a command is refused as a protocol violation only. -/
theorem protocolViolation_of_exec_refused (hcap : s.bufCap = none) (h : exec i s = .refused x) : x = .protocolViolation := by
  cases i with
  | encBegin => exact (execEncBegin_eq_refused.mp h).2
  | encByte b =>
    rcases execEncByte_eq_refused.mp h with ⟨-, hx⟩ | ⟨-, hfull, -⟩
    · exact hx
    · simp [hcap] at hfull
  | encEnd => exact (execEncEnd_eq_refused.mp h).2
  | decBegin => exact (execDecBegin_eq_refused.mp h).2
  | decSym sym =>
    rcases execDecSym_eq_refused.mp h with ⟨-, hx⟩ | ⟨-, hfull, -⟩
    · exact hx
    · simp [hcap] at hfull
  | decEnd => exact (execDecEnd_eq_refused.mp h).2

/-- With unbounded buffers a command is accepted exactly in its phase. -/
theorem exec_accepted_iff (hcap : s.bufCap = none) : (∃ t, exec i s = .next t) ↔ phaseAdmits i s := by
  refine not_iff_not.mp (Iff.trans ?_ exec_eq_protocolViolation)
  cases hx : exec i s with
  | next t => simp
  | fault r => cases r
  | refused x => simp [protocolViolation_of_exec_refused hcap hx]

/-! ### An open call stays open -/

@[simp] theorem scan_phase (cfg : Cfg) (d : Decoder) (c : Sym) : (scan cfg d c).phase = d.phase := (scan_keeps cfg d c).1

@[simp] theorem takeEnveloped_phase (cfg : Cfg) (d : Decoder) (c : Sym) : (takeEnveloped cfg d c).phase = d.phase := by
  unfold takeEnveloped; split_ifs <;> simp

@[simp] theorem decTake_phase (cfg : Cfg) (d : Decoder) (c : Sym) : (decTake cfg d c).phase = d.phase := by
  unfold decTake; split <;> simp

/-- An open encode call is closed by `ENC_END` only. -/
theorem exec_keeps_enc_open (h : exec i s = .next t) (hopen : s.enc.phase = .opened) (hi : i ≠ .encEnd) :
    t.enc.phase = .opened := by
  cases i with
  | encBegin =>
    obtain ⟨hidle, -⟩ := execEncBegin_eq_next.mp h
    simp [hopen] at hidle
  | encByte b =>
    obtain ⟨-, -, rfl⟩ := execEncByte_eq_next.mp h
    simpa using hopen
  | encEnd => exact absurd rfl hi
  | decBegin | decSym _ | decEnd =>
    obtain ⟨d, rs, rfl⟩ := exec_decoder_frame rfl h
    exact hopen

/-- An open decode call is closed by `DEC_END` only. -/
theorem exec_keeps_dec_open (h : exec i s = .next t) (hopen : s.dec.phase = .opened) (hi : i ≠ .decEnd) :
    t.dec.phase = .opened := by
  cases i with
  | decBegin =>
    obtain ⟨hidle, -⟩ := execDecBegin_eq_next.mp h
    simp [hopen] at hidle
  | decSym sym =>
    obtain ⟨-, -, rfl⟩ := execDecSym_eq_next.mp h
    simpa using hopen
  | decEnd => exact absurd rfl hi
  | encBegin | encByte _ | encEnd =>
    obtain ⟨e, rs, rfl⟩ := exec_encoder_frame rfl h
    exact hopen

end

/-- Settles O7: admission by the refusals of each meaning, open calls by the frame of the other engine's commands. -/
theorem admissionIsByOwnPhaseOnly : Obligations.AdmissionIsByOwnPhaseOnly := fun _ _ =>
  ⟨exec_accepted_iff, exec_eq_protocolViolation, fun _ => exec_keeps_enc_open, fun _ => exec_keeps_dec_open⟩

end Sys2Proof.Proofs

/-! PROOF. The encoding of commands (30_encoding.md R71, R72, R74, R81): a word is its operation code and its operand, the decoder inverts
the encoder, and the rows of the opcode map are the words of the commands. -/

namespace Sys2Proof.Proofs

section

variable {w v : CmdWord} {i : Instr} {r r₁ r₂ : OpcodeRow}

/-! ### A word is `op` and `arg` (R71) -/

@[simp] theorem opOf_append (op : BitVec 4) (arg : BitVec 8) : opOf (op ++ arg) = op := by
  rw [opOf, BitVec.extractLsb'_append_eq_of_le (Nat.le_refl 8)]
  exact BitVec.extractLsb'_eq_self

@[simp] theorem argOf_append (op : BitVec 4) (arg : BitVec 8) : argOf (op ++ arg) = arg := by
  rw [argOf, BitVec.extractLsb'_append_eq_of_add_le (Nat.le_refl 8)]
  exact BitVec.extractLsb'_eq_self

@[simp] theorem opOf_append_argOf (w : CmdWord) : opOf w ++ argOf w = w :=
  (BitVec.extractLsb'_append_extractLsb'_eq_extractLsb' rfl).trans BitVec.extractLsb'_eq_self

/-- Two words with the same `op` and the same `arg` are one word. -/
theorem word_ext_iff : w = v ↔ opOf w = opOf v ∧ argOf w = argOf v := by
  refine ⟨fun h => h ▸ ⟨rfl, rfl⟩, fun ⟨hop, harg⟩ => ?_⟩
  rw [← opOf_append_argOf w, hop, harg, opOf_append_argOf]

/-- `op` of a command (R72). -/
def opcode : Instr → BitVec 4
  | .encBegin => 0x1#4
  | .encByte _ => 0x2#4
  | .encEnd => 0x3#4
  | .decBegin => 0x9#4
  | .decSym _ => 0xA#4
  | .decEnd => 0xB#4

/-- The word of a command is its `op`, which the fields `eng`, `rsv` and `fn` spell, and its `arg`. -/
theorem encode_eq_append (i : Instr) : encode i = opcode i ++ i.fields.arg := by
  have hop : i.fields.eng ++ i.fields.rsv ++ i.fields.fn = opcode i := by
    cases i <;> simp [Instr.fields, opcode]
  rw [← hop]
  rfl

@[simp] theorem opOf_encode (i : Instr) : opOf (encode i) = opcode i := by
  rw [encode_eq_append, opOf_append]

@[simp] theorem argOf_encode (i : Instr) : argOf (encode i) = i.fields.arg := by
  rw [encode_eq_append, argOf_append]

/-- A word is that of a command when its `op` and its `arg` are. -/
theorem eq_encode_iff : w = encode i ↔ opOf w = opcode i ∧ argOf w = i.fields.arg := by
  rw [word_ext_iff, opOf_encode, argOf_encode]

/-! ### Decode and encode -/

theorem bareCommand_eq_ok {c : Instr} {arg : BitVec 8} : bareCommand c arg = .ok i ↔ arg = 0#8 ∧ c = i := by
  unfold bareCommand; split <;> simp_all

/-- The decoder gives back the command whose word it reads. -/
@[simp] theorem decode_encode (i : Instr) : decode (encode i) = .ok i := by
  cases i <;> simp [decode, opcode, Instr.fields, bareCommand_eq_ok]

/-- A command without operand is decoded from its own word only. -/
theorem eq_encode_of_bareCommand {c : Instr} (h : bareCommand c (argOf w) = .ok i) (hop : opOf w = opcode c)
    (hc : c.fields.arg = 0#8) : w = encode i := by
  obtain ⟨harg, rfl⟩ := bareCommand_eq_ok.mp h
  exact eq_encode_iff.mpr ⟨hop, harg.trans hc.symm⟩

/-- A word that decodes to a command is the command's word. -/
theorem eq_encode_of_decode (h : decode w = .ok i) : w = encode i := by
  unfold decode at h
  split_ifs at h with h1 h2 h3 h9 hA hB
  · exact eq_encode_of_bareCommand h h1 rfl
  · cases h
    exact eq_encode_iff.mpr ⟨h2, rfl⟩
  · exact eq_encode_of_bareCommand h h3 rfl
  · exact eq_encode_of_bareCommand h h9 rfl
  · cases h
    exact eq_encode_iff.mpr ⟨hA, rfl⟩
  · exact eq_encode_of_bareCommand h hB rfl

/-- Decode and encode agree in both directions. -/
theorem decode_eq_ok_iff : decode w = .ok i ↔ w = encode i :=
  ⟨eq_encode_of_decode, fun h => h ▸ decode_encode i⟩

/-- Two commands with the same word are one command. -/
theorem encode_injective : Function.Injective encode := fun i j h =>
  Except.ok.inj ((decode_encode i).symm.trans (h ▸ decode_encode j))

theorem decodeCmd_encode (i : Instr) : decodeCmd (encode i) = some i := by
  simp [decodeCmd, Except.toOption]

/-! ### The rows of the opcode map (R72) -/

/-- The mask of a data command's row compares `op` and nothing else. -/
theorem and_opMask_eq_iff (hv : argOf v = 0#8) : w &&& 0xF00#12 = v ↔ opOf w = opOf v := by
  have hop : opOf (w &&& 0xF00#12) = opOf w := BitVec.extractLsb'_and.trans BitVec.and_allOnes
  have harg : argOf (w &&& 0xF00#12) = 0#8 := BitVec.extractLsb'_and.trans BitVec.and_zero
  rw [word_ext_iff, hop, harg, hv]
  exact and_iff_left rfl

/-- The mask of the other rows keeps the whole word. -/
theorem and_fullMask (w : CmdWord) : w &&& 0xFFF#12 = w := BitVec.and_allOnes

/-- A word that matches a row is the word of a command with the row's mnemonic. -/
theorem exists_encode_of_matches (hr : r ∈ opcodeTable) (h : w &&& r.mask = r.pattern) :
    ∃ i, w = encode i ∧ i.mnemonic = r.mnemonic := by
  simp only [opcodeTable, List.mem_cons, List.not_mem_nil, or_false] at hr
  rcases hr with rfl | rfl | rfl | rfl | rfl | rfl
  · exact ⟨.encBegin, (and_fullMask w).symm.trans h, rfl⟩
  · exact ⟨.encByte (argOf w), eq_encode_iff.mpr ⟨(and_opMask_eq_iff rfl).mp h, rfl⟩, rfl⟩
  · exact ⟨.encEnd, (and_fullMask w).symm.trans h, rfl⟩
  · exact ⟨.decBegin, (and_fullMask w).symm.trans h, rfl⟩
  · exact ⟨.decSym (argOf w), eq_encode_iff.mpr ⟨(and_opMask_eq_iff rfl).mp h, rfl⟩, rfl⟩
  · exact ⟨.decEnd, (and_fullMask w).symm.trans h, rfl⟩

/-- The word of every command matches a row. -/
theorem exists_row_matches_encode (i : Instr) : ∃ r ∈ opcodeTable, encode i &&& r.mask = r.pattern := by
  cases i with
  | encBegin => exact ⟨⟨"ENC_BEGIN", 0x100#12, 0xFFF#12⟩, by decide, by decide⟩
  | encByte b => exact ⟨⟨"ENC_BYTE", 0x200#12, 0xF00#12⟩, by decide, (and_opMask_eq_iff rfl).mpr (opOf_encode _)⟩
  | encEnd => exact ⟨⟨"ENC_END", 0x300#12, 0xFFF#12⟩, by decide, by decide⟩
  | decBegin => exact ⟨⟨"DEC_BEGIN", 0x900#12, 0xFFF#12⟩, by decide, by decide⟩
  | decSym s => exact ⟨⟨"DEC_SYM", 0xA00#12, 0xF00#12⟩, by decide, (and_opMask_eq_iff rfl).mpr (opOf_encode _)⟩
  | decEnd => exact ⟨⟨"DEC_END", 0xB00#12, 0xFFF#12⟩, by decide, by decide⟩

/-- No two rows have the same mnemonic. -/
theorem row_eq_of_mnemonic_eq : ∀ r₁ ∈ opcodeTable, ∀ r₂ ∈ opcodeTable, r₁.mnemonic = r₂.mnemonic → r₁ = r₂ := by
  decide

/-- No word matches two rows. -/
theorem row_eq_of_matches (h₁ : r₁ ∈ opcodeTable) (h₂ : r₂ ∈ opcodeTable) (hw₁ : w &&& r₁.mask = r₁.pattern)
    (hw₂ : w &&& r₂.mask = r₂.pattern) : r₁ = r₂ := by
  obtain ⟨i₁, hi₁, hm₁⟩ := exists_encode_of_matches h₁ hw₁
  obtain ⟨i₂, hi₂, hm₂⟩ := exists_encode_of_matches h₂ hw₂
  have hi : i₁ = i₂ := encode_injective (hi₁.symm.trans hi₂)
  exact row_eq_of_mnemonic_eq r₁ h₁ r₂ h₂ (by rw [← hm₁, ← hm₂, hi])

/-- A word that matches no row decodes to no command. -/
theorem decode_error_of_no_row (h : ∀ r ∈ opcodeTable, w &&& r.mask ≠ r.pattern) : ∃ e, decode w = .error e := by
  cases hd : decode w with
  | error e => exact ⟨e, rfl⟩
  | ok i =>
    obtain ⟨r, hr, hm⟩ := exists_row_matches_encode i
    exact absurd hm (eq_encode_of_decode hd ▸ h r hr)

/-! ### The reserved words (R74) -/

theorem bareCommand_eq_error {c : Instr} {arg : BitVec 8} {e : Reserved} :
    bareCommand c arg = .error e ↔ arg ≠ 0#8 ∧ .nonzeroArg = e := by
  unfold bareCommand; split <;> simp_all

/-- An `op` that is none of the six is one of the ten that name no command. -/
theorem op_reserved_of_ne : ∀ op : BitVec 4, op ≠ 0x1#4 → op ≠ 0x2#4 → op ≠ 0x3#4 → op ≠ 0x9#4 → op ≠ 0xA#4 → op ≠ 0xB#4 →
    op ∈ [0x0#4, 0x4#4, 0x5#4, 0x6#4, 0x7#4, 0x8#4, 0xC#4, 0xD#4, 0xE#4, 0xF#4] := by
  decide

/-- The words that are no command: those whose `op` names none, and BEGIN or END with an operand. -/
theorem decode_error_iff : (∃ e, decode w = .error e) ↔
    (opOf w ∈ [0x0#4, 0x4#4, 0x5#4, 0x6#4, 0x7#4, 0x8#4, 0xC#4, 0xD#4, 0xE#4, 0xF#4] ∨
      (opOf w ∈ [0x1#4, 0x3#4, 0x9#4, 0xB#4] ∧ argOf w ≠ 0x00#8)) := by
  unfold decode
  split_ifs with h1 h2 h3 h9 hA hB
  · simp [h1, bareCommand_eq_error]
  · simp [h2]
  · simp [h3, bareCommand_eq_error]
  · simp [h9, bareCommand_eq_error]
  · simp [hA]
  · simp [hB, bareCommand_eq_error]
  · simp [op_reserved_of_ne _ h1 h2 h3 h9 hA hB]

/-- Every byte, once. -/
def allBytes : List Byte := (List.finRange (2 ^ 8)).map BitVec.ofFin

/-- Every command, once: four without operand, and two with each operand. -/
def allCommands : List Instr :=
  [Instr.encBegin, Instr.encEnd, Instr.decBegin, Instr.decEnd] ++ allBytes.map Instr.encByte ++ allBytes.map Instr.decSym

theorem mem_allBytes (b : Byte) : b ∈ allBytes := List.mem_map.mpr ⟨b.toFin, List.mem_finRange _, rfl⟩

theorem nodup_allBytes : allBytes.Nodup := (List.nodup_finRange _).map fun _ _ h => congrArg BitVec.toFin h

theorem length_allBytes : allBytes.length = 256 := (List.length_map _).trans List.length_finRange

theorem mem_allCommands (i : Instr) : i ∈ allCommands := by
  cases i <;> simp [allCommands, mem_allBytes]

theorem nodup_allCommands : allCommands.Nodup := by
  have hb : (allBytes.map Instr.encByte).Nodup := nodup_allBytes.map fun _ _ => Instr.encByte.inj
  have hs : (allBytes.map Instr.decSym).Nodup := nodup_allBytes.map fun _ _ => Instr.decSym.inj
  refine List.nodup_append.mpr ⟨List.nodup_append.mpr ⟨by decide, hb, ?_⟩, hs, ?_⟩ <;> simp

theorem length_allCommands : allCommands.length = 516 := by
  simp [allCommands, length_allBytes]

theorem decodeCmd_isSome_iff : (decodeCmd w).isSome ↔ ∃ i, w = encode i := by
  simp only [← decode_eq_ok_iff, decodeCmd]
  cases decode w <;> simp [Except.toOption]

/-- The 12-bit numbers that decode to a command are the words of the commands. -/
theorem decodable_perm_words : ((List.range 4096).filter fun n => (decodeCmd (BitVec.ofNat 12 n)).isSome).Perm
    (allCommands.map fun i => (encode i).toNat) := by
  refine (List.perm_ext_iff_of_nodup (List.nodup_range.filter _)
    (nodup_allCommands.map (BitVec.toNat_injective.comp encode_injective))).mpr fun n => ?_
  simp only [List.mem_filter, List.mem_range, List.mem_map, decodeCmd_isSome_iff, mem_allCommands, true_and]
  constructor
  · rintro ⟨hn, i, hi⟩
    exact ⟨i, (congrArg BitVec.toNat hi).symm.trans (Nat.mod_eq_of_lt hn)⟩
  · rintro ⟨i, rfl⟩
    exact ⟨(encode i).isLt, i, BitVec.ofNat_toNat _ _⟩

/-- The commands are 516 of the 4096 words (R74). -/
theorem decodable_count : ((List.range 4096).filter fun n => (decodeCmd (BitVec.ofNat 12 n)).isSome).length = 516 :=
  decodable_perm_words.length_eq.trans ((List.length_map _).trans length_allCommands)

/-- Of `n + k` elements, a function that has a value at `n` has none at `k`. -/
theorem length_filter_isNone {α β : Type} {l : List α} {f : α → Option β} {n k : Nat} (hl : l.length = n + k)
    (hsome : (l.filter fun a => (f a).isSome).length = n) : (l.filter fun a => (f a).isNone).length = k := by
  have hsplit := l.length_eq_length_filter_add fun a => (f a).isSome
  simp only [Option.not_isSome] at hsplit
  omega

theorem reserved_count : ((List.range 4096).filter fun n => (decodeCmd (BitVec.ofNat 12 n)).isNone).length = 3580 :=
  length_filter_isNone (n := 516) List.length_range decodable_count

/-- A step refuses a word that is no command, whatever the state. -/
theorem step_reserved {s : Machine.State} {rest : List Machine.HostEvent} {e : Reserved} (hin : s.input = .command w :: rest)
    (hd : decode w = .error e) : Machine.step s = .refused .reservedEncoding := by
  simp [Machine.step, Machine.nextEvent, hin, hd]

end

/-- Settles O2: a row's words are the words of its command, which the decoder gives back. -/
theorem decoderFollowsOpcodeMap : Obligations.DecoderFollowsOpcodeMap := by
  refine ⟨rfl, fun w r hr h => ?_, fun w => decode_error_of_no_row, fun w r₁ r₂ => row_eq_of_matches, decodeCmd_encode⟩
  obtain ⟨i, rfl, hi⟩ := exists_encode_of_matches hr h
  exact ⟨i, decode_encode i, hi, (argOf_encode i).symm⟩

/-- Settles O3: the two classes, their number as what the 516 words of the commands leave of 4096, and the refusal. -/
theorem reservedWordsAreRefused : Obligations.ReservedWordsAreRefused :=
  ⟨fun _ => decode_error_iff, reserved_count, decodable_count, fun _ _ _ _ => step_reserved⟩

end Sys2Proof.Proofs

/-! PROOF. The beats of a record and of a channel (30_encoding.md R77, R78). -/

namespace Sys2Proof.Proofs

open Sys2Proof.Machine

/-- A data beat has `kind` 0 (R78), so a successful record is its payload's elements so marked, then the `END_OK` beat. -/
theorem recordBeats_ok (payload : List (BitVec 8)) :
    recordBeats { status := .ok, payload := payload } = payload.map (fun x => (0#2 ++ x : Beat)) ++ [0x100#10] := rfl

/-- A failed record is one `END_ERR` beat, whatever its payload. -/
theorem recordBeats_error (e : Error) (payload : List (BitVec 8)) :
    recordBeats { status := .error e, payload := payload } = [0x200#10 ||| (errorCode e).setWidth 10] := by
  cases e <;> rfl

/-- Settles O57: the beats of a record by its status; those of a channel are a concatenation. -/
theorem beatsOfARecord : Obligations.BeatsOfARecord :=
  ⟨fun payload => ⟨recordBeats_ok payload, by simp [recordBeats_ok]⟩, recordBeats_error, fun _ _ => List.flatMap_append⟩

end Sys2Proof.Proofs

/-! PROOF. The Alphabet Table (40_alphabet_table.md): which strings `construct` accepts (R101), and the two lookups (R104, R105, R108,
R111). -/

namespace Sys2Proof.Proofs

open Sys2Proof.Machine Sys2Proof.Laws

section

variable {cfg : Cfg} {alphabet : List Sym} {special s : Sym} {wrapEnvelope : Bool} {i : Digit}

/-! ### construct -/

/-- The configuration `construct` builds of 85 distinct symbols. -/
theorem construct_of_nodup (hlen : alphabet.length = 85) (hnd : alphabet.Nodup) :
    construct alphabet special wrapEnvelope =
      .ok { alpha := ⟨alphabet.toArray, hlen⟩, wrap := wrapEnvelope, special := special } := by
  simp [construct, hlen, alphabetDistinct, hnd]

theorem construct_of_invalid (h : ¬ (alphabet.length = 85 ∧ alphabet.Nodup)) :
    construct alphabet special wrapEnvelope = .error .invalidAlphabet := by
  by_cases hlen : alphabet.length = 85
  · have hnd : ¬ alphabet.Nodup := fun hnd => h ⟨hlen, hnd⟩
    simp [construct, alphabetDistinct, hnd]
  · simp [construct, hlen]

/-! ### The lookups -/

/-- The table read out entry by entry. -/
theorem alpha_toList (cfg : Cfg) : cfg.alpha.toList = (List.finRange 85).map (alpha cfg) :=
  List.ext_getElem (by simp) fun n _ _ => by simp [alpha]

theorem mem_alpha_toList : s ∈ cfg.alpha.toList ↔ ∃ d, alpha cfg d = s := by
  simp [alpha_toList]

theorem valid_iff_nodup : cfg.Valid ↔ cfg.alpha.toList.Nodup := decide_eq_true_iff

/-- A configuration is valid when no two digits have the same symbol. -/
theorem valid_iff_injective : cfg.Valid ↔ Function.Injective (alpha cfg) := by
  rw [valid_iff_nodup, alpha_toList]
  exact ⟨fun h _ _ => List.inj_on_of_nodup_map h (List.mem_finRange _) (List.mem_finRange _), (List.nodup_finRange 85).map⟩

theorem inv_eq_none_iff : inv cfg s = none ↔ s ∉ cfg.alpha.toList := by
  rw [mem_alpha_toList]
  simp [inv]

/-- In a valid table the search finds the one digit whose symbol it looks for. -/
theorem inv_eq_some_iff (hv : cfg.Valid) : inv cfg s = some i ↔ alpha cfg i = s := by
  refine ⟨alpha_of_inv, fun hi => ?_⟩
  cases hs : inv cfg s with
  | none => exact absurd (mem_alpha_toList.mpr ⟨i, hi⟩) (inv_eq_none_iff.mp hs)
  | some j => exact congrArg some (valid_iff_injective.mp hv ((alpha_of_inv hs).trans hi.symm))

/-! ### The default alphabet -/

theorem alpha_defaultCfg_toNat (d : Digit) : (alpha defaultCfg d).toNat = 0x21 + d.val := by
  have hlt : 0x21 + d.val < 256 := by omega
  simpa [alpha, defaultCfg, defaultAlphabet] using hlt

theorem defaultCfg_valid : defaultCfg.Valid := by
  refine valid_iff_injective.mpr fun d e h => Fin.ext ?_
  have hnat := congrArg BitVec.toNat h
  rw [alpha_defaultCfg_toNat, alpha_defaultCfg_toNat] at hnat
  omega

/-- A code that the inverse lookup of the default alphabet does not find lies outside 0x21 to 0x75. -/
theorem default_range_of_inv_none (h : inv defaultCfg s = none) : s.toNat < 0x21 ∨ 0x75 < s.toNat := by
  by_contra hin
  have hd : s.toNat - 0x21 < 85 := by omega
  refine inv_eq_none_iff.mp h (mem_alpha_toList.mpr ⟨⟨s.toNat - 0x21, hd⟩, BitVec.eq_of_toNat_eq ?_⟩)
  rw [alpha_defaultCfg_toNat]
  dsimp only
  omega

end

/-- Settles O10: both tests passed give the configuration, either failed gives the error. -/
theorem constructAcceptsExactlyValidAlphabets : Obligations.ConstructAcceptsExactlyValidAlphabets :=
  fun _ _ _ => ⟨fun ⟨hlen, hnd⟩ => ⟨_, construct_of_nodup hlen hnd, rfl, rfl, rfl, valid_iff_nodup.mpr hnd⟩, construct_of_invalid⟩

/-- Settles O11: the search finds a digit exactly when the digit's symbol is the one looked for. -/
theorem lookupsAreInverse : Obligations.LookupsAreInverse :=
  fun _ hv => ⟨fun _ => (inv_eq_some_iff hv).mpr rfl, fun _ _ => alpha_of_inv⟩

/-- Settles O13: `construct` accepts the default alphabet, whose symbols are consecutive codes. -/
theorem defaultAlphabetLookups : Obligations.DefaultAlphabetLookups := by
  have hnd : defaultAlphabet.toList.Nodup := valid_iff_nodup.mp defaultCfg_valid
  refine ⟨construct_of_nodup defaultAlphabet.length_toList hnd, defaultCfg_valid, rfl, alpha_defaultCfg_toNat, fun s => ?_⟩
  cases hs : inv defaultCfg s with
  | none => exact .inr ⟨rfl, default_range_of_inv_none hs⟩
  | some d => exact .inl ⟨d, rfl, alpha_of_inv hs ▸ alpha_defaultCfg_toNat d⟩

end Sys2Proof.Proofs

/-! PROOF. The inverse ROM (40_alphabet_table.md R103): what the two loops of `build_inv` leave at each symbol code, and how many entries
are valid. -/

namespace Sys2Proof.Proofs

open Sys2Proof.Machine Sys2Proof.Laws

section

variable {cfg : Cfg} {s : Sym}

/-! ### The loops -/

/-- The second loop's last turn: the last symbol's entry is written over the ROM of the symbols before it. -/
theorem buildInv_concat (l : List Sym) (c : Sym) :
    buildInv (l ++ [c]) = (buildInv l).set c.toNat (1#1 ++ BitVec.ofNat 7 l.length) c.isLt := by
  simp [buildInv, List.zipIdx_append]

/-- A code that is no symbol of the alphabet keeps the 0 of the first loop. -/
theorem buildInv_of_not_mem {l : List Sym} (h : s ∉ l) : (buildInv l)[s.toNat]'s.isLt = 0#8 := by
  induction l using List.reverseRecOn with
  | nil => exact Vector.getElem_replicate s.isLt
  | append_singleton l c ih =>
    obtain ⟨hl, hc⟩ : s ∉ l ∧ s ≠ c := by simpa using h
    have hne : c.toNat ≠ s.toNat := fun hcs => hc (BitVec.eq_of_toNat_eq hcs.symm)
    simpa [buildInv_concat, Vector.getElem_set_ne, hne] using ih hl

/-- The entry of an alphabet's symbol holds its index: no later turn of the loop writes there. -/
theorem buildInv_of_getElem {l : List Sym} (hnd : l.Nodup) {n : Nat} (hn : n < l.length) (hs : l[n] = s) :
    (buildInv l)[s.toNat]'s.isLt = 1#1 ++ BitVec.ofNat 7 n := by
  induction l using List.reverseRecOn with
  | nil => cases hn
  | append_singleton l c ih =>
    obtain ⟨hl, -, hdisj⟩ := List.nodup_append.mp hnd
    rcases Nat.lt_or_eq_of_le (Nat.le_of_lt_succ (by simpa using hn)) with hlt | rfl
    · have hsl : l[n] = s := by simpa [hlt] using hs
      have hne : c.toNat ≠ s.toNat := fun hcs =>
        hdisj l[n] (List.getElem_mem hlt) c (by simp) (hsl.trans (BitVec.eq_of_toNat_eq hcs.symm))
      simpa [buildInv_concat, Vector.getElem_set_ne, hne] using ih hl hlt hsl
    · obtain rfl : c = s := by simpa using hs
      simp [buildInv_concat]

/-! ### The ROM is the table of the inverse lookup -/

theorem invRom_getElem (hv : cfg.Valid) (s : Sym) : (invRom cfg)[s.toNat]'s.isLt = invEntry (inv cfg s) := by
  cases hs : inv cfg s with
  | none => exact buildInv_of_not_mem (inv_eq_none_iff.mp hs)
  | some d => exact buildInv_of_getElem (valid_iff_nodup.mp hv) (by simp) (alpha_of_inv hs)

/-- The unit's outputs are the two fields of the entry. -/
theorem inverseRomUnit_append (cfg : Cfg) (s : Sym) :
    (inverseRomUnit cfg s).1 ++ (inverseRomUnit cfg s).2 = invEntry (inv cfg s) :=
  (BitVec.extractLsb'_append_extractLsb'_eq_extractLsb' rfl).trans BitVec.extractLsb'_eq_self

/-- The ROM in the order of the codes. -/
theorem invRom_toList (hv : cfg.Valid) : (invRom cfg).toList = allBytes.map fun s => invEntry (inv cfg s) := by
  refine List.ext_getElem (by simp [length_allBytes]) fun n hn _ => ?_
  simp [← invRom_getElem hv, allBytes]

/-! ### The number of valid entries -/

/-- Bit 7 of an entry says whether the lookup finds a digit. -/
theorem invEntry_valid (e : Option Digit) : (invEntry e).extractLsb' 7 1 = BitVec.ofBool e.isSome := by
  cases e with
  | none => rfl
  | some d => exact (BitVec.extractLsb'_append_eq_of_le (Nat.le_refl 7)).trans BitVec.extractLsb'_eq_self

/-- The codes the lookup finds are the alphabet's symbols. -/
theorem found_perm_alpha (hv : cfg.Valid) : (allBytes.filter fun s => (inv cfg s).isSome).Perm cfg.alpha.toList := by
  refine (List.perm_ext_iff_of_nodup (nodup_allBytes.filter _) (valid_iff_nodup.mp hv)).mpr fun s => ?_
  rw [List.mem_filter, ← not_iff_not, ← inv_eq_none_iff]
  simp [mem_allBytes]

theorem found_count (hv : cfg.Valid) : (allBytes.filter fun s => (inv cfg s).isSome).length = 85 :=
  (found_perm_alpha hv).length_eq.trans cfg.alpha.length_toList

theorem invRom_valid_count (hv : cfg.Valid) : ((invRom cfg).toList.filter fun e => e.extractLsb' 7 1 == 1#1).length = 85 := by
  rw [invRom_toList hv, List.filter_map, List.length_map, ← found_count hv]
  congr 2 with s
  cases h : inv cfg s <;> simp [invEntry_valid, h]

theorem invRom_invalid_count (hv : cfg.Valid) : ((invRom cfg).toList.filter fun e => e.extractLsb' 7 1 == 0#1).length = 171 := by
  rw [invRom_toList hv, List.filter_map, List.length_map, ← length_filter_isNone (k := 171) length_allBytes (found_count hv)]
  congr 2 with s
  cases h : inv cfg s <;> simp [invEntry_valid, h]

end

/-- Settles O12: the entries by the loops, their agreement with the inverse lookup, and the count of the symbols it finds. -/
theorem inverseRomIsBuiltRight : Obligations.InverseRomIsBuiltRight := fun cfg hv =>
  ⟨fun i => buildInv_of_getElem (valid_iff_nodup.mp hv) (by simp) rfl, fun _ => buildInv_of_not_mem,
    fun s => (invRom_getElem hv s).trans (inverseRomUnit_append cfg s).symm, invRom_valid_count hv, invRom_invalid_count hv⟩

end Sys2Proof.Proofs

/-! PROOF. The configuration in a step: no step writes it (40_alphabet_table.md R107), and no command reads `CFG.SPECIAL` (R109). -/

namespace Sys2Proof.Proofs

open Sys2Proof.Machine Sys2Proof.Laws

section

variable {i : Instr} {s t : State} {r : Refusal}

/-- A command writes its own engine and channel only, so neither parameter. -/
theorem exec_keeps_parameters (h : exec i s = .next t) : t.cfg = s.cfg ∧ t.bufCap = s.bufCap := by
  cases hi : i.isEncoder with
  | true =>
    obtain ⟨_, _, rfl⟩ := exec_encoder_frame hi h
    exact ⟨rfl, rfl⟩
  | false =>
    obtain ⟨_, _, rfl⟩ := exec_decoder_frame hi h
    exact ⟨rfl, rfl⟩

/-- Nor does a step: the reset event leaves both as they are. -/
theorem step_keeps_parameters (h : step s = .next t) : t.cfg = s.cfg ∧ t.bufCap = s.bufCap := by
  rcases step_eq_next.mp h with ⟨_, -, rfl⟩ | ⟨_, rest, _, -, -, hexec⟩
  · exact ⟨rfl, rfl⟩
  · exact exec_keeps_parameters (s := { s with input := rest }) hexec

/-- An accepted command is accepted with another `CFG.SPECIAL` too, and does the same: what it stores is computed from `CFG.ALPHA` and
`CFG.WRAP`. -/
theorem exec_withSpecial_next (h : exec i s = .next t) (x : Sym) : exec i (withSpecial s x) = .next (withSpecial t x) := by
  cases i with
  | encBegin =>
    obtain ⟨hphase, rfl⟩ := execEncBegin_eq_next.mp h
    exact execEncBegin_eq_next.mpr ⟨hphase, rfl⟩
  | encByte b =>
    obtain ⟨hphase, hroom, rfl⟩ := execEncByte_eq_next.mp h
    exact execEncByte_eq_next.mpr ⟨hphase, hroom, rfl⟩
  | encEnd =>
    obtain ⟨hphase, rfl⟩ := execEncEnd_eq_next.mp h
    exact execEncEnd_eq_next.mpr ⟨hphase, rfl⟩
  | decBegin =>
    obtain ⟨hphase, rfl⟩ := execDecBegin_eq_next.mp h
    exact execDecBegin_eq_next.mpr ⟨hphase, rfl⟩
  | decSym sym =>
    obtain ⟨hphase, hroom, rfl⟩ := execDecSym_eq_next.mp h
    exact execDecSym_eq_next.mpr ⟨hphase, hroom, rfl⟩
  | decEnd =>
    obtain ⟨hphase, rfl⟩ := execDecEnd_eq_next.mp h
    refine execDecEnd_eq_next.mpr ⟨hphase, ?_⟩
    rw [decFinish_eq, decFinish_eq]
    rfl

/-- A refused command is refused for the same reason with another `CFG.SPECIAL`: phase and room do not depend on it. -/
theorem exec_withSpecial_refused (h : exec i s = .refused r) (x : Sym) : exec i (withSpecial s x) = .refused r := by
  cases i with
  | encBegin => exact execEncBegin_eq_refused.mpr ((execEncBegin_eq_refused (s := s)).mp h)
  | encByte b => exact execEncByte_eq_refused.mpr ((execEncByte_eq_refused (s := s)).mp h)
  | encEnd => exact execEncEnd_eq_refused.mpr ((execEncEnd_eq_refused (s := s)).mp h)
  | decBegin => exact execDecBegin_eq_refused.mpr ((execDecBegin_eq_refused (s := s)).mp h)
  | decSym sym => exact execDecSym_eq_refused.mpr ((execDecSym_eq_refused (s := s)).mp h)
  | decEnd => exact execDecEnd_eq_refused.mpr ((execDecEnd_eq_refused (s := s)).mp h)

end

/-- Settles O14: neither parameter changes, and the inverse ROM is computed from one of them. -/
theorem configurationNeverChanges : Obligations.ConfigurationNeverChanges := fun _ _ h => by
  obtain ⟨hcfg, hcap⟩ := step_keeps_parameters h
  exact ⟨hcfg, hcap, congrArg invRom hcfg⟩

/-- Settles O15: the accepted and the refused commands, one by one. -/
theorem specialCharacterIsNeverRead : Obligations.SpecialCharacterIsNeverRead :=
  fun _ _ x => ⟨fun _ h => exec_withSpecial_next h x, fun _ h => exec_withSpecial_refused h x⟩

end Sys2Proof.Proofs

/-! PROOF. The block packer (41_encode.md R120, R121): `pack` as a sum, as the fold of `pack_step`, and as the inverse of `unpack`. -/

namespace Sys2Proof.Proofs

open Sys2Proof.Machine Sys2Proof.Laws

section

variable {bs : List Byte} {b : Byte} {t : Tuple} {c : Fin 4}

/-! ### The weighted sum -/

theorem packSum_eq_sum (bs : List Byte) (i : Nat) :
    packSum bs i = ((List.range bs.length).map fun j => (bs.getD j 0#8).toNat * 2 ^ (24 - 8 * (i + j))).sum := by
  induction bs generalizing i with
  | nil => rfl
  | cons b bs ih => simp [packSum, ih, List.range_succ_eq_map, Function.comp_def, Nat.add_right_comm, Nat.add_assoc]

theorem packSum_concat (bs : List Byte) (b : Byte) (i : Nat) :
    packSum (bs ++ [b]) i = packSum bs i + b.toNat * 2 ^ (24 - 8 * (i + bs.length)) := by
  induction bs generalizing i with
  | nil => simp [packSum]
  | cons a bs ih => simp only [List.cons_append, packSum, ih, List.length_cons]; ring_nf

/-- The weight of the byte at position `i` and the first weight above its 8 bits. -/
theorem two_pow_above_byte {i : Nat} (h : i < 4) : 2 ^ (32 - 8 * i) = 256 * 2 ^ (24 - 8 * i) := by
  rw [show 32 - 8 * i = 8 + (24 - 8 * i) by omega, pow_add]
  rfl

/-- The bytes from position `i` on lie in the bits below `32 - 8 * i`. -/
theorem packSum_lt {i : Nat} (h : i + bs.length ≤ 4) : packSum bs i < 2 ^ (32 - 8 * i) := by
  induction bs generalizing i with
  | nil => exact Nat.two_pow_pos _
  | cons b bs ih =>
    rw [List.length_cons] at h
    have htail := ih (i := i + 1) (by omega)
    rw [show 32 - 8 * (i + 1) = 24 - 8 * i by omega] at htail
    have hhead := Nat.mul_le_mul_right (2 ^ (24 - 8 * i)) (show b.toNat ≤ 255 by omega)
    rw [packSum, two_pow_above_byte (by omega)]
    omega

theorem pack_toNat (h : bs.length ≤ 4) : (pack bs).toNat = packSum bs 0 := by
  rw [pack, BitVec.toNat_ofNat, Nat.mod_eq_of_lt (packSum_lt (i := 0) (by omega))]

/-- The bits below the packed bytes are zero (R133). -/
theorem pack_low_bits (h : bs.length ≤ 4) : 2 ^ (32 - 8 * bs.length) ∣ (pack bs).toNat := by
  rw [pack_toNat h]
  induction bs using List.reverseRecOn with
  | nil => exact dvd_zero _
  | append_singleton bs b ih =>
    rw [List.length_append, List.length_singleton] at h ⊢
    rw [packSum_concat]
    refine dvd_add ((pow_dvd_pow 2 (by omega)).trans (ih (by omega))) (Dvd.dvd.mul_left (pow_dvd_pow 2 (by omega)) _)

/-! ### `pack_step` -/

/-- Where the packed bits are still zero the OR of `pack_step` is an addition (R120). -/
theorem packStep_toNat (h : 2 ^ (32 - 8 * c.val) ∣ t.toNat) :
    (packStep t c b).toNat = t.toNat + b.toNat * 2 ^ (24 - 8 * c.val) := by
  have hlt : b.toNat * 2 ^ (24 - 8 * c.val) < 2 ^ (32 - 8 * c.val) := by
    rw [two_pow_above_byte c.isLt]; exact Nat.mul_lt_mul_of_pos_right b.isLt (Nat.two_pow_pos _)
  have hfit : b.toNat * 2 ^ (24 - 8 * c.val) < 2 ^ 32 := hlt.trans_le (Nat.pow_le_pow_right (by omega) (by omega))
  have hshift : (b.setWidth 32 <<< (24 - 8 * c.val)).toNat = b.toNat * 2 ^ (24 - 8 * c.val) := by
    rw [BitVec.toNat_shiftLeft, BitVec.toNat_setWidth_of_le (by omega), Nat.shiftLeft_eq, Nat.mod_eq_of_lt hfit]
  obtain ⟨q, hq⟩ := h
  rw [packStep, BitVec.toNat_or, hshift, hq, Nat.two_pow_add_eq_or_of_lt hlt]

/-- One more byte of a group is one `pack_step` (R121). -/
theorem pack_concat (hc : bs.length = c.val) : pack (bs ++ [b]) = packStep (pack bs) c b := by
  have hlen : bs.length ≤ 4 := by omega
  refine BitVec.eq_of_toNat_eq ?_
  rw [packStep_toNat (hc ▸ pack_low_bits hlen), pack_toNat hlen, pack_toNat (by simp; omega), packSum_concat, hc, Nat.zero_add]

/-- The state of the fold of R121 after one more byte: the tuple and the position. -/
def packNext (p : Tuple × Fin 4) (b : Byte) : Tuple × Fin 4 := (packStep p.1 p.2 b, p.2 + 1)

theorem foldl_packNext (h : bs.length ≤ 4) : bs.foldl packNext (0#32, 0) = (pack bs, Fin.ofNat 4 bs.length) := by
  induction bs using List.reverseRecOn with
  | nil => rfl
  | append_singleton bs b ih =>
    rw [List.length_append, List.length_singleton] at h
    have hpos : bs.length = (Fin.ofNat 4 bs.length).val := (Nat.mod_eq_of_lt (by omega)).symm
    rw [List.foldl_append, ih (by omega), pack_concat hpos]
    refine Prod.ext rfl (Fin.ext ?_)
    simp [packNext, Fin.val_add]

/-! ### Four bytes -/

theorem toNat_append_byte {n : Nat} (x : BitVec n) (b : Byte) : (x ++ b).toNat = x.toNat * 256 + b.toNat := by
  rw [BitVec.toNat_append, ← Nat.shiftLeft_add_eq_or_of_lt b.isLt, Nat.shiftLeft_eq]

/-- A full group is the concatenation of its bytes (R121). -/
theorem pack_four (b0 b1 b2 b3 : Byte) : pack [b0, b1, b2, b3] = b0 ++ b1 ++ b2 ++ b3 := by
  refine BitVec.eq_of_toNat_eq ?_
  rw [pack_toNat (by simp)]
  simp only [packSum, toNat_append_byte]
  omega

theorem pack_unpack (t : Tuple) : pack (unpack t) = t := by
  have := t.isLt
  simp only [unpack, pack_four, ← BitVec.toNat_inj, toNat_append_byte, BitVec.extractLsb'_toNat, Nat.shiftRight_eq_div_pow]
  omega

theorem unpack_pack (h : bs.length = 4) : unpack (pack bs) = bs := by
  obtain ⟨b0, b1, b2, b3, rfl⟩ := List.length_eq_four.mp h
  simp only [unpack, pack_four, List.cons.injEq, and_true, ← BitVec.toNat_inj, BitVec.extractLsb'_toNat, toNat_append_byte,
    Nat.shiftRight_eq_div_pow]
  omega

/-- Every tuple is that of exactly one group. -/
theorem existsUnique_pack_eq (t : Tuple) : ∃! bs : List Byte, bs.length = 4 ∧ pack bs = t :=
  ⟨unpack t, ⟨unpack_length t, pack_unpack t⟩, fun _ ⟨hlen, h⟩ => h ▸ (unpack_pack hlen).symm⟩

end

/-- Settles O16: the sum and the fold over the bytes, the concatenation of four, and the unique preimage `unpack`. -/
theorem packIsBigEndian : Obligations.PackIsBigEndian := by
  refine ⟨fun bs h => ?_, fun bs h => (congrArg Prod.fst (foldl_packNext h)).symm, pack_four, rfl, existsUnique_pack_eq⟩
  rw [pack_toNat h, packSum_eq_sum]
  simp only [Nat.zero_add]

end Sys2Proof.Proofs

/-! PROOF. The divider and the symbols of a group (41_encode.md R122 to R126). -/

namespace Sys2Proof.Proofs

open Sys2Proof.Machine Sys2Proof.Laws

section

variable {t u : Tuple}

/-! ### Quotients and digits -/

@[simp] theorem divmod85_fst_toNat (x : Tuple) : (divmod85 x).1.toNat = x.toNat / 85 := by
  have := x.isLt
  rw [divmod85, BitVec.toNat_ofNat, Nat.mod_eq_of_lt (by omega)]

@[simp] theorem divmod85_snd_val (x : Tuple) : (divmod85 x).2.val = x.toNat % 85 := rfl

/-- The digit of a tuple at the place `85^k`. -/
def digitAt (t : Tuple) (k : Nat) : Digit := ⟨t.toNat / 85 ^ k % 85, Nat.mod_lt _ (by decide)⟩

/-- The digits that repeated division collects are those at the five places (R123). -/
theorem digits85_eq (t : Tuple) : digits85 t = [digitAt t 4, digitAt t 3, digitAt t 2, digitAt t 1, digitAt t 0] := by
  simp [digits85, digitAt, Fin.ext_iff, Nat.div_div_eq_div_mul]

/-- The five digits spell the tuple, since `t < 85^5` (R123). -/
theorem toNat_eq_digits (t : Tuple) :
    t.toNat = (digitAt t 4).val * 85 ^ 4 + (digitAt t 3).val * 85 ^ 3 + (digitAt t 2).val * 85 ^ 2 + (digitAt t 1).val * 85
      + (digitAt t 0).val := by
  have := t.isLt
  simp only [digitAt]
  omega

theorem digitAt_four_le (t : Tuple) : (digitAt t 4).val ≤ 82 := by
  have := t.isLt
  simp only [digitAt]
  omega

theorem digits85_injective : Function.Injective digits85 := fun t u h => by
  rw [digits85_eq, digits85_eq] at h
  simp only [List.cons.injEq, and_true] at h
  obtain ⟨h4, h3, h2, h1, h0⟩ := h
  rw [← BitVec.toNat_inj, toNat_eq_digits t, toNat_eq_digits u, h4, h3, h2, h1, h0]

/-! ### Full groups -/

/-- The zero test is on all four bytes (R126). -/
theorem pack_four_eq_zero (b0 b1 b2 b3 : Byte) :
    pack [b0, b1, b2, b3] = 0#32 ↔ b0 = 0#8 ∧ b1 = 0#8 ∧ b2 = 0#8 ∧ b3 = 0#8 := by
  simp only [pack_four, ← BitVec.toNat_inj, toNat_append_byte, BitVec.toNat_ofNat]
  omega

end

/-- Settles O17: the digits are those at the five places. -/
theorem digitsSpellTheTuple : Obligations.DigitsSpellTheTuple := fun t =>
  ⟨_, _, _, _, _, digits85_eq t, rfl, rfl, rfl, by simp [digitAt], by simp [digitAt], toNat_eq_digits t⟩

/-- Settles O18: every bound is `t < 2^32` divided by a power of 85. -/
theorem digitRanges : Obligations.DigitRanges := by
  refine ⟨fun t => ⟨_, _, digits85_eq t, digitAt_four_le t⟩, fun t => ?_, fun t u h => digits85_injective h⟩
  have := t.isLt
  simp only [← BitVec.toNat_inj, divmod85_fst_toNat, BitVec.toNat_ofNat]
  omega

/-- Settles O19: the zero test on the bytes, then the two cases of `group_syms`. -/
theorem groupSymbols : Obligations.GroupSymbols :=
  ⟨pack_four_eq_zero, groupSyms_zero, fun cfg t h => ⟨groupSyms_of_ne_zero cfg h, by simp [groupSyms_of_ne_zero cfg h]⟩⟩

end Sys2Proof.Proofs

/-! PROOF. The encoder commands (41_encode.md R129 to R132): the next state or the refusal of each, and that none fails. -/

namespace Sys2Proof.Proofs

open Sys2Proof.Machine Sys2Proof.Laws

section

variable {cfg : Cfg} {e : Encoder} {b : Byte} {i : Instr} {s t : State}

/-- The first three bytes of a group are packed and append nothing (R130). -/
theorem encTake_of_ne_three (h : e.count ≠ 3) :
    encTake cfg e b = { e with tuple := packStep e.tuple e.count b, count := e.count + 1 } := by
  simp [encTake, h]

/-- The fourth byte completes the group (R130). -/
theorem encTake_of_eq_three (h : e.count = 3) :
    encTake cfg e b = { e with tuple := 0#32, count := 0, buf := e.buf ++ groupSyms cfg (packStep e.tuple e.count b) } := by
  simp [encTake, h]

/-- The fourth byte of a group is not shifted. -/
theorem packStep_three (t : Tuple) (b : Byte) : packStep t 3 b = t ||| b.setWidth 32 := by
  simp [packStep]

/-- The tail of a record: pending when `E_COUNT` is positive (R131). -/
theorem encOutput_eq (cfg : Cfg) (e : Encoder) :
    encOutput cfg e = e.buf ++ (if 0 < e.count.val then (syms5 cfg e.tuple).take (e.count.val + 1) else [])
      ++ (if cfg.wrap = true then [0x7E#8, 0x3E#8] else []) := by
  by_cases h : e.count = 0
  · simp [encOutput, h, postfixMarker]
  · simp [encOutput, h, Nat.pos_iff_ne_zero, tailSyms, postfixMarker]

/-- An encoder command appends nothing to `ENC_RES`, or the record of a successful call (R132). -/
theorem exec_encRes_of_encoder (hi : i.isEncoder = true) (h : exec i s = .next t) :
    t.encRes = s.encRes ∨ ∃ r, t.encRes = s.encRes ++ [r] ∧ r.status = .ok := by
  cases i with
  | encBegin =>
    obtain ⟨-, rfl⟩ := execEncBegin_eq_next.mp h
    exact .inl rfl
  | encByte b =>
    obtain ⟨-, -, rfl⟩ := execEncByte_eq_next.mp h
    exact .inl rfl
  | encEnd =>
    obtain ⟨-, rfl⟩ := execEncEnd_eq_next.mp h
    exact .inr ⟨_, rfl, rfl⟩
  | decBegin | decSym _ | decEnd => cases hi

end

/-- Settles O21: the buffer at the start of a call, with and without the envelope. -/
theorem encBeginOpensACall : Obligations.EncBeginOpensACall := fun s => by
  refine ⟨fun hp hw => execEncBegin_eq_next.mpr ⟨hp, ?_⟩, fun hp hw => execEncBegin_eq_next.mpr ⟨hp, ?_⟩,
    fun hp => execEncBegin_eq_refused.mpr ⟨by simp [hp], rfl⟩⟩
  · simp [encOpen, hw, prefixMarker, State.setEnc]
  · simp [encOpen, hw, State.setEnc]

/-- Settles O22: the two cases of `encTake`; only the fourth byte of a group needs room. -/
theorem encByteTakesAByte : Obligations.EncByteTakesAByte := fun s b => by
  refine ⟨fun hp hc => execEncByte_eq_next.mpr ⟨hp, ?_⟩, fun hp hc hroom => execEncByte_eq_next.mpr ⟨hp, ?_⟩,
    fun hp => execEncByte_eq_refused.mpr (.inl ⟨by simp [hp], rfl⟩)⟩
  · rw [encTake_of_ne_three hc]
    exact ⟨roomFor_self _ _, rfl⟩
  · rw [encTake_of_eq_three hc, hc, packStep_three]
    exact ⟨roomFor_iff.mpr fun cap hcap => .inr (hroom cap hcap), rfl⟩

/-- Settles O23: the record is `encOutput`, and the state left is that of `closeEncode`. -/
theorem encEndPublishesTheRecord : Obligations.EncEndPublishesTheRecord := fun s =>
  ⟨fun hp => execEncEnd_eq_next.mpr ⟨hp, by rw [encOutput_eq]; rfl⟩,
    fun hp => execEncEnd_eq_refused.mpr ⟨by simp [hp], rfl⟩⟩

/-- Settles O25: in its phase a command is accepted when buffers are unbounded, and only `ENC_END` publishes. -/
theorem encodeCannotFail : Obligations.EncodeCannotFail :=
  fun _ _ hi => ⟨fun hcap => (exec_accepted_iff hcap).mpr, fun _ => exec_encRes_of_encoder hi⟩

end Sys2Proof.Proofs

/-! PROOF. The packer along a call (41_encode.md R133): the encoder engine after `ENC_BEGIN` and any bytes, in closed form. -/

namespace Sys2Proof.Proofs

open Sys2Proof.Machine Sys2Proof.Laws

section

variable {cfg : Cfg} {bs : List Byte} {b : Byte} {i : Instr} {s t : State}

/-! ### Groups of a byte sequence that grows -/

theorem partialGroup_length (bs : List Byte) : (partialGroup bs).length = bs.length % 4 := by
  rw [partialGroup, List.length_drop]
  omega

/-- A byte that completes no group joins the partial group. -/
theorem partialGroup_concat (h : bs.length % 4 ≠ 3) : partialGroup (bs ++ [b]) = partialGroup bs ++ [b] := by
  have hq : (bs ++ [b]).length / 4 = bs.length / 4 := by simp; omega
  rw [partialGroup, partialGroup, hq, List.drop_append_of_le_length (by omega)]

/-- After the fourth byte of a group nothing is pending. -/
theorem partialGroup_eq_nil (h : bs.length % 4 = 0) : partialGroup bs = [] := by
  rw [← List.length_eq_zero_iff, partialGroup_length, h]

theorem fullGroup_concat {j : Nat} (h : j < bs.length / 4) : fullGroup (bs ++ [b]) j = fullGroup bs j := by
  rw [fullGroup, fullGroup, List.drop_append_of_le_length (by omega), List.take_append_of_le_length (by simp; omega)]

/-- The byte that completes a group makes it of the partial group. -/
theorem fullGroup_concat_last (h : bs.length % 4 = 3) : fullGroup (bs ++ [b]) (bs.length / 4) = partialGroup bs ++ [b] := by
  have hlen := partialGroup_length bs
  rw [fullGroup, List.drop_append_of_le_length (by omega), ← partialGroup, List.take_of_length_le (by simp; omega)]

/-- The symbols of the completed groups, in order (R133). -/
def completedSyms (cfg : Cfg) (bs : List Byte) : List Sym :=
  (List.range (bs.length / 4)).flatMap fun j => groupSyms cfg (pack (fullGroup bs j))

theorem flatMap_fullGroup_concat (cfg : Cfg) (bs : List Byte) (b : Byte) :
    ((List.range (bs.length / 4)).flatMap fun j => groupSyms cfg (pack (fullGroup (bs ++ [b]) j))) = completedSyms cfg bs :=
  List.flatMap_congr fun _ hj => by rw [fullGroup_concat (List.mem_range.mp hj)]

theorem completedSyms_concat (h : bs.length % 4 ≠ 3) : completedSyms cfg (bs ++ [b]) = completedSyms cfg bs := by
  have hq : (bs ++ [b]).length / 4 = bs.length / 4 := by simp; omega
  rw [completedSyms, hq, flatMap_fullGroup_concat]

theorem completedSyms_concat_last (h : bs.length % 4 = 3) :
    completedSyms cfg (bs ++ [b]) = completedSyms cfg bs ++ groupSyms cfg (pack (partialGroup bs ++ [b])) := by
  have hq : (bs ++ [b]).length / 4 = bs.length / 4 + 1 := by simp; omega
  rw [completedSyms, hq, List.range_succ, List.flatMap_append, flatMap_fullGroup_concat, List.flatMap_singleton,
    fullGroup_concat_last h]

/-! ### The encoder engine in a call -/

/-- The encoder engine after `ENC_BEGIN` and the bytes `bs` (R133). -/
def encAfter (cfg : Cfg) (bs : List Byte) : Encoder :=
  { phase := .opened, tuple := pack (partialGroup bs), count := Fin.ofNat 4 bs.length,
    buf := (if cfg.wrap then prefixMarker else []) ++ completedSyms cfg bs }

theorem encAfter_nil (cfg : Cfg) : encAfter cfg [] = encOpen cfg := by
  simp [encAfter, encOpen, completedSyms, partialGroup, pack, packSum]

/-- One byte takes the engine after `bs` to the engine after `bs` and the byte. -/
theorem encTake_encAfter (cfg : Cfg) (bs : List Byte) (b : Byte) : encTake cfg (encAfter cfg bs) b = encAfter cfg (bs ++ [b]) := by
  have hpack : pack (partialGroup bs ++ [b]) = packStep (encAfter cfg bs).tuple (encAfter cfg bs).count b :=
    pack_concat (partialGroup_length bs)
  by_cases h : bs.length % 4 = 3
  · have hnil : partialGroup (bs ++ [b]) = [] := partialGroup_eq_nil (by simp; omega)
    rw [encTake_of_eq_three (Fin.ext h), ← hpack, encAfter, encAfter, hnil, completedSyms_concat_last h, List.append_assoc]
    refine congrArg (Encoder.mk _ _ · _) (Fin.ext ?_)
    simp
    omega
  · rw [encTake_of_ne_three fun hc => h (congrArg Fin.val hc), ← hpack, encAfter, encAfter, partialGroup_concat h,
      completedSyms_concat h]
    refine congrArg (Encoder.mk _ _ · _) (Fin.ext ?_)
    simp [Fin.val_add]

/-! ### Runs -/

theorem runCommands_cons_of_next (h : exec i s = .next t) (is : List Instr) : runCommands (i :: is) s = runCommands is t := by
  rw [runCommands_cons (decode_encode i), h]

/-- Bytes given to an open encoder, one `ENC_BYTE` each. -/
theorem runCommands_encBytes (hcap : s.bufCap = none) (bs more : List Byte) :
    runCommands (more.map .encByte) (s.setEnc (encAfter s.cfg bs)) = .next (s.setEnc (encAfter s.cfg (bs ++ more))) := by
  induction more generalizing bs with
  | nil => simp
  | cons b more ih =>
    have hstep : exec (.encByte b) (s.setEnc (encAfter s.cfg bs)) = .next (s.setEnc (encAfter s.cfg (bs ++ [b]))) := by
      refine execEncByte_eq_next.mpr ⟨rfl, by simp [hcap], ?_⟩
      rw [← encTake_encAfter]
      rfl
    rw [List.map_cons, runCommands_cons_of_next hstep, ih, List.append_assoc]
    rfl

/-- `ENC_BEGIN` and the bytes of a call, from any idle encoder (R133). -/
theorem runCommands_encBegin_encBytes (hidle : s.enc.phase = .idle) (hcap : s.bufCap = none) (bs : List Byte) :
    runCommands (.encBegin :: bs.map .encByte) s = .next (s.setEnc (encAfter s.cfg bs)) := by
  have hbegin : exec .encBegin s = .next (s.setEnc (encAfter s.cfg [])) :=
    execEncBegin_eq_next.mpr ⟨hidle, by rw [encAfter_nil]⟩
  rw [runCommands_cons_of_next hbegin]
  exact runCommands_encBytes hcap [] bs

end

/-- Settles O24: the closed form of the engine along a call, and the low bits of a packed partial group. -/
theorem packerHoldsThePartialGroup : Obligations.PackerHoldsThePartialGroup := fun s bytes hidle hcap => by
  have hlow := pack_low_bits (bs := partialGroup bytes) (by rw [partialGroup_length]; omega)
  rw [partialGroup_length] at hlow
  exact ⟨_, runCommands_encBegin_encBytes hidle hcap bytes, rfl, rfl, rfl, Nat.mod_eq_zero_of_dvd hlow, rfl⟩

end Sys2Proof.Proofs

/-! PROOF. The decoder's arithmetic (42_decode.md R151 to R156): the accumulator, its Horner form, the tail, and `unpack`. -/

namespace Sys2Proof.Proofs

open Sys2Proof.Machine Sys2Proof.Laws

section

variable {ds : List Digit}

/-! ### The two accumulators -/

theorem accStep_toNat (t : Tuple) (c : Fin 5) (i : Digit) :
    (accStep t c i).toNat = (t.toNat + i.val * 85 ^ (4 - c.val)) % 2 ^ 32 := by
  rw [accStep, BitVec.toNat_ofNat, pow85_toNat]

theorem hornerStep_toNat (h : Tuple) (i : Digit) : (hornerStep h i).toNat = (h.toNat * 85 + i.val) % 2 ^ 32 := by
  rw [hornerStep, BitVec.toNat_ofNat]

/-- The last digit of a group is added at the count of the digits before it. -/
theorem accDigits_concat (ds : List Digit) (i : Digit) (c : Fin 5) (t : Tuple) :
    accDigits (ds ++ [i]) c t = accStep (accDigits ds c t) (c + Fin.ofNat 5 ds.length) i := by
  induction ds generalizing c t with
  | nil => simp [accDigits]
  | cons d ds ih =>
    have hc : c + 1 + Fin.ofNat 5 ds.length = c + Fin.ofNat 5 (ds.length + 1) := by
      simp only [Fin.ext_iff, Fin.val_add, Fin.val_ofNat, Fin.val_one]
      omega
    simp only [List.cons_append, accDigits, ih, List.length_cons, hc]

theorem hornerDigits_concat (ds : List Digit) (i : Digit) : hornerDigits (ds ++ [i]) = hornerStep (hornerDigits ds) i := by
  simp [hornerDigits]

/-- After `c` digits the positional form is the Horner form times the weight of the digits to come (R152). A new digit moves one
factor 85 from that weight into the Horner value. -/
theorem accDigits_modEq_hornerDigits (h : ds.length ≤ 5) :
    (accDigits ds 0 0#32).toNat ≡ (hornerDigits ds).toNat * 85 ^ (5 - ds.length) [MOD 2 ^ 32] := by
  induction ds using List.reverseRecOn with
  | nil => rfl
  | append_singleton ds i ih =>
    rw [List.length_append, List.length_singleton] at h ⊢
    have hpos : (0 + Fin.ofNat 5 ds.length : Fin 5).val = ds.length := by
      rw [zero_add]; exact Nat.mod_eq_of_lt (by omega)
    have hpow : 85 ^ (5 - ds.length) = 85 * 85 ^ (5 - (ds.length + 1)) := by
      rw [← pow_succ']; congr 1; omega
    have hhorner : (hornerDigits (ds ++ [i])).toNat ≡ (hornerDigits ds).toNat * 85 + i.val [MOD 2 ^ 32] := by
      rw [hornerDigits_concat, hornerStep_toNat]; exact Nat.mod_modEq _ _
    calc (accDigits (ds ++ [i]) 0 0#32).toNat
        ≡ (accDigits ds 0 0#32).toNat + i.val * 85 ^ (4 - ds.length) [MOD 2 ^ 32] := by
          rw [accDigits_concat, accStep_toNat, hpos]; exact Nat.mod_modEq _ _
      _ ≡ (hornerDigits ds).toNat * 85 ^ (5 - ds.length) + i.val * 85 ^ (4 - ds.length) [MOD 2 ^ 32] :=
          (ih (by omega)).add_right _
      _ = ((hornerDigits ds).toNat * 85 + i.val) * 85 ^ (5 - (ds.length + 1)) := by
          rw [hpow, Nat.add_mul, Nat.mul_assoc, show 4 - ds.length = 5 - (ds.length + 1) by omega]
      _ ≡ (hornerDigits (ds ++ [i])).toNat * 85 ^ (5 - (ds.length + 1)) [MOD 2 ^ 32] := (hhorner.mul_right _).symm

/-- A full group may be accumulated either way (R152). -/
theorem accDigits_eq_hornerDigits (h : ds.length = 5) : accDigits ds 0 0#32 = hornerDigits ds := by
  have hmod := accDigits_modEq_hornerDigits h.le
  rw [h, Nat.sub_self, pow_zero, Nat.mul_one] at hmod
  exact BitVec.eq_of_toNat_eq (hmod.eq_of_lt_of_lt (BitVec.isLt _) (BitVec.isLt _))

/-- The bias of a tail is one unit of the Horner value's last place (R152). -/
theorem accDigits_bias_modEq (h1 : 1 ≤ ds.length) (h : ds.length ≤ 5) :
    (accDigits ds 0 0#32).toNat + 85 ^ (4 - (ds.length - 1))
      ≡ ((hornerDigits ds).toNat + 1) * 85 ^ (5 - ds.length) [MOD 2 ^ 32] := by
  rw [show 4 - (ds.length - 1) = 5 - ds.length by omega, Nat.add_mul, Nat.one_mul]
  exact (accDigits_modEq_hornerDigits h).add_right _

/-! ### The tail -/

/-- The bias as a power of 85, and the bytes kept (R155, R156). -/
theorem tailBytes_eq (count : Fin 5) (t : Tuple) :
    tailBytes count t = (unpack (BitVec.ofNat 32 (t.toNat + 85 ^ (4 - (count.val - 1))))).take (count.val - 1) := by
  rw [tailBytes, blockUnpacker, pow85_toNat]
  rfl

end

/-- Settles O27: the table of powers holds `85^(4-c)`. -/
theorem accumulatorAddsModulo32Bits : Obligations.AccumulatorAddsModulo32Bits := accStep_toNat

/-- Settles O28: by induction on the digits from the last one; the other two clauses are the cases of five digits and of a tail. -/
theorem hornerFormAgrees : Obligations.HornerFormAgrees := by
  refine ⟨fun ds h => ?_, fun ds => accDigits_eq_hornerDigits, fun ds h2 h4 => accDigits_bias_modEq (by omega) (by omega)⟩
  have hmod := accDigits_modEq_hornerDigits h
  rwa [Nat.ModEq, Nat.mod_eq_of_lt (BitVec.isLt _)] at hmod

/-- Settles O29: the inverse laws of the packer, read from the unpacker's side. -/
theorem unpackInvertsPack : Obligations.UnpackInvertsPack :=
  ⟨fun _ => rfl, pack_unpack, fun _ => unpack_pack⟩

/-- Settles O30: the bias of a tail as a power of 85. -/
theorem tailBytesAddTheBias : Obligations.TailBytesAddTheBias := fun count t _ => tailBytes_eq count t

end Sys2Proof.Proofs

/-! PROOF. Content symbols (42_decode.md R150, R160, R162): their classification, and what the scan of one does. -/

namespace Sys2Proof.Proofs

open Sys2Proof.Machine Sys2Proof.Laws

section

variable {cfg : Cfg} {d : Decoder} {c s : Sym} {i : Digit}

/-! ### Classification -/

/-- The shorthand test does not look at the alphabet (R110, R150). -/
theorem classify_shorthandSym (cfg : Cfg) : classify cfg shorthandSym = .shorthand := rfl

theorem classify_of_inv_some (hs : s ≠ shorthandSym) (h : inv cfg s = some i) : classify cfg s = .digit i := by
  simp [classify, isShorthand, hs, h]

theorem classify_of_inv_none (hs : s ≠ shorthandSym) (h : inv cfg s = none) : classify cfg s = .invalid := by
  simp [classify, isShorthand, hs, h]

/-- The symbols of the default alphabet are the codes 0x21 to 0x75 (R108). -/
theorem inv_defaultCfg_eq_some_iff : inv defaultCfg s = some i ↔ s.toNat = 0x21 + i.val := by
  rw [inv_eq_some_iff defaultCfg_valid, ← alpha_defaultCfg_toNat, BitVec.toNat_inj, eq_comm]

theorem inv_defaultCfg_eq_none (h : s.toNat < 0x21 ∨ 0x75 < s.toNat) : inv defaultCfg s = none := by
  refine Option.eq_none_iff_forall_ne_some.mpr fun i hi => ?_
  have hs := inv_defaultCfg_eq_some_iff.mp hi
  omega

/-! ### The scan, case by case -/

/-- After a failure the scan does nothing (R162). -/
theorem scan_of_failed (h : d.err ≠ none) : scan cfg d c = d := by
  simp [scan, scanFailed, Option.isSome_iff_ne_none, h]

theorem scan_of_digit (he : d.err = none) (hc : classify cfg c = .digit i) : scan cfg d c = takeDigit d i := by
  simp [scan, scanFailed, he, hc]

theorem scan_of_shorthand (he : d.err = none) (hc : classify cfg c = .shorthand) : scan cfg d c = takeShorthand d := by
  simp [scan, scanFailed, he, hc]

theorem scan_of_invalid (he : d.err = none) (hc : classify cfg c = .invalid) : scan cfg d c = { d with err := some .symbol } := by
  simp [scan, scanFailed, he, hc, latchScanError]

/-- A shorthand at a group boundary stands for four zero bytes (R161). -/
theorem takeShorthand_of_eq_zero (h : d.count = 0) : takeShorthand d = { d with buf := d.buf ++ [0#8, 0#8, 0#8, 0#8] } := by
  simp [takeShorthand, h]

/-- A shorthand inside a group is misplaced (R161). -/
theorem takeShorthand_of_ne_zero (h : d.count ≠ 0) : takeShorthand d = { d with err := some .shorthandPlacement } := by
  simp [takeShorthand, h, latchScanError]

/-- The fifth digit completes the group. -/
theorem takeDigit_of_eq_four (h : d.count = 4) :
    takeDigit d i = { d with buf := d.buf ++ unpack (accStep d.tuple d.count i), tuple := 0#32, count := 0 } := by
  simp [takeDigit, h]

theorem takeDigit_of_ne_four (h : d.count ≠ 4) :
    takeDigit d i = { d with tuple := accStep d.tuple d.count i, count := d.count + 1 } := by
  simp [takeDigit, h]

end

/-- Settles O26: the two cases of the inverse lookup, and the range of the default alphabet. -/
theorem classifyTestsTheShorthandFirst : Obligations.ClassifyTestsTheShorthandFirst := by
  refine ⟨classify_shorthandSym, fun _ _ _ => classify_of_inv_some, fun _ _ => classify_of_inv_none, fun s hlo hhi => ?_,
    fun s hs hout => classify_of_inv_none hs (inv_defaultCfg_eq_none hout)⟩
  have hi : s.toNat = 0x21 + (⟨s.toNat - 0x21, by omega⟩ : Digit).val := by dsimp only; omega
  have hs : s ≠ shorthandSym := by rintro rfl; exact absurd hhi (by decide)
  exact ⟨_, classify_of_inv_some hs (inv_defaultCfg_eq_some_iff.mpr hi), rfl⟩

/-- Settles O32: the verdicts one by one, then the count. -/
theorem scanOfOneSymbol : Obligations.ScanOfOneSymbol := fun _ _ _ =>
  ⟨scan_of_failed, fun he hc h0 => (scan_of_shorthand he hc).trans (takeShorthand_of_ne_zero h0),
    fun he hc h0 => (scan_of_shorthand he hc).trans (takeShorthand_of_eq_zero h0), scan_of_invalid,
    fun _ he hc h4 => (scan_of_digit he hc).trans (takeDigit_of_eq_four h4),
    fun _ he hc h4 => (scan_of_digit he hc).trans (takeDigit_of_ne_four h4)⟩

end Sys2Proof.Proofs

/-! PROOF. The decoder commands (42_decode.md R163, R166, R169, R170): the next state or the refusal of each. -/

namespace Sys2Proof.Proofs

open Sys2Proof.Machine Sys2Proof.Laws

section

variable {cfg : Cfg} {d : Decoder} {sym : Sym} {e : ScanError} {s t : State}

/-! ### `DEC_SYM` -/

theorem decTake_of_not_wrap (h : cfg.wrap = false) : decTake cfg d sym = scan cfg d sym := by
  simp [decTake, h]

theorem decTake_of_wrap (h : cfg.wrap = true) : decTake cfg d sym = takeEnveloped cfg d sym := by
  simp [decTake, h]

theorem envBadAfter_eq (d : Decoder) (got want : Sym) : envBadAfter d got want = if got = want then d.envBad else true := by
  by_cases h : got = want <;> simp [envBadAfter, h]

/-- The first symbol of a text is compared with `<` (R165). -/
theorem takeEnveloped_npre_zero (h : d.npre = 0) :
    takeEnveloped cfg d sym = { d with envBad := envBadAfter d sym 0x3C#8, npre := 1 } := by
  simp [takeEnveloped, h]

/-- The second symbol of a text is compared with `~` (R165). -/
theorem takeEnveloped_npre_one (h : d.npre = 1) :
    takeEnveloped cfg d sym = { d with envBad := envBadAfter d sym 0x7E#8, npre := 2 } := by
  simp [takeEnveloped, h]

/-- The empty delay line (R165). -/
theorem takeEnveloped_nhold_zero (h : d.npre = 2) (h0 : d.nhold = 0) :
    takeEnveloped cfg d sym = { d with hold0 := sym, nhold := 1 } := by
  simp [takeEnveloped, h, h0]

/-- The delay line with one symbol (R165). -/
theorem takeEnveloped_nhold_one (h : d.npre = 2) (h1 : d.nhold = 1) :
    takeEnveloped cfg d sym = { d with hold1 := sym, nhold := 2 } := by
  simp [takeEnveloped, h, h1]

/-- The full delay line gives up its older symbol, which is scanned (R165). -/
theorem takeEnveloped_nhold_two (h : d.npre = 2) (h2 : d.nhold = 2) :
    takeEnveloped cfg d sym = scan cfg { d with hold0 := d.hold1, hold1 := sym } d.hold0 := by
  simp [takeEnveloped, h, h2]

/-- An accepted `DEC_SYM`, given the decoder engine it leaves. -/
theorem exec_decSym_of_decTake (hp : s.dec.phase = .opened) (htake : decTake s.cfg s.dec sym = d)
    (hroom : roomFor s.bufCap s.dec.buf d.buf = true) : exec (.decSym sym) s = .next (s.setDec d) := by
  subst htake
  exact execDecSym_eq_next.mpr ⟨hp, hroom, rfl⟩

/-- Where the buffer keeps its contents or is within `BUF_CAP` there is room (R250). -/
theorem roomFor_of_eq_or_le {cap : Option Nat} {old new : List (BitVec 8)}
    (h : ∀ n, cap = some n → new = old ∨ new.length ≤ n) : roomFor cap old new = true :=
  roomFor_iff.mpr fun n hn => (h n hn).imp (fun heq => (congrArg List.length heq).le) id

/-! ### `DEC_END` -/

/-- A bad envelope wins over everything else (R169). -/
theorem decVerdict_of_envelope_bad (h : envOk cfg d = false) : decVerdict cfg d = .error .malformedEnvelope := by
  simp [decVerdict, h]

/-- Under a good envelope the scan error is reported (R170). -/
theorem decVerdict_of_scan_error (h : envOk cfg d = true) (he : d.err = some e) :
    decVerdict cfg d = .error (scanErrorAsError e) := by
  simp [decVerdict, h, he]

theorem decVerdict_of_count_zero (h : envOk cfg d = true) (he : d.err = none) (hc : d.count = 0) :
    decVerdict cfg d = .ok d.buf := by
  simp [decVerdict, h, he, hc]

/-- A lone last symbol (R170). -/
theorem decVerdict_of_count_one (h : envOk cfg d = true) (he : d.err = none) (hc : d.count = 1) :
    decVerdict cfg d = .error .truncatedBlock := by
  simp [decVerdict, h, he, hc]

theorem decVerdict_of_tail (h : envOk cfg d = true) (he : d.err = none) (hc : 2 ≤ d.count.val) :
    decVerdict cfg d = .ok (d.buf ++ tailBytes d.count d.tuple) := by
  have h0 : d.count ≠ 0 := by rintro h0; simp [h0] at hc
  have h1 : d.count ≠ 1 := by rintro h1; simp [h1] at hc
  simp [decVerdict, h, he, h0, h1]

/-- `DEC_END` publishes the record of the verdict and clears the decoder. -/
theorem exec_decEnd_of_decVerdict {v : Except Error (List Byte)} (hp : s.dec.phase = .opened)
    (hv : decVerdict s.cfg s.dec = v) : exec .decEnd s = .next (closeDecode (verdictRecord v) s) := by
  subst hv
  exact execDecEnd_eq_next.mpr ⟨hp, (decFinish_eq s).symm⟩

end

/-- Settles O33: the engine after `DEC_BEGIN` is `decOpen`. -/
theorem decBeginOpensACall : Obligations.DecBeginOpensACall := fun s =>
  ⟨fun hp => execDecBegin_eq_next.mpr ⟨hp, rfl⟩, fun hp => execDecBegin_eq_refused.mpr ⟨by simp [hp], rfl⟩⟩

/-- Settles O34: the positions of a text one by one; only a scan can need room. -/
theorem decSymTakesASymbol : Obligations.DecSymTakesASymbol := fun s sym => by
  refine ⟨fun hp hw hroom => ?plain, fun hp hw hn => ?first, fun hp hw hn => ?second, fun hp hw hn hh => ?third,
    fun hp hw hn hh => ?fourth, fun d hd hp hw hn hh hroom => ?later, fun hp => ?idle⟩
  case plain => exact exec_decSym_of_decTake hp (decTake_of_not_wrap hw) (roomFor_of_eq_or_le hroom)
  case first =>
    rw [← envBadAfter_eq]
    exact exec_decSym_of_decTake hp ((decTake_of_wrap hw).trans (takeEnveloped_npre_zero hn)) (roomFor_self _ _)
  case second =>
    rw [← envBadAfter_eq]
    exact exec_decSym_of_decTake hp ((decTake_of_wrap hw).trans (takeEnveloped_npre_one hn)) (roomFor_self _ _)
  case third =>
    exact exec_decSym_of_decTake hp ((decTake_of_wrap hw).trans (takeEnveloped_nhold_zero hn hh)) (roomFor_self _ _)
  case fourth =>
    exact exec_decSym_of_decTake hp ((decTake_of_wrap hw).trans (takeEnveloped_nhold_one hn hh)) (roomFor_self _ _)
  case later =>
    exact exec_decSym_of_decTake hp ((decTake_of_wrap hw).trans ((takeEnveloped_nhold_two hn hh).trans hd.symm))
      (roomFor_of_eq_or_le hroom)
  case idle => exact execDecSym_eq_refused.mpr (.inl ⟨by simp [hp], rfl⟩)

/-- Settles O35: the verdicts in the order of R170; the state left is that of `closeDecode`. -/
theorem decEndPublishesTheRecord : Obligations.DecEndPublishesTheRecord := fun s close hclose => by
  obtain rfl : close = fun r => closeDecode r s := funext hclose
  exact ⟨fun hp henv => exec_decEnd_of_decVerdict hp (decVerdict_of_envelope_bad henv),
    fun hp henv he => exec_decEnd_of_decVerdict hp (decVerdict_of_scan_error henv he),
    fun hp henv he => exec_decEnd_of_decVerdict hp (decVerdict_of_scan_error henv he),
    fun hp henv he hc => exec_decEnd_of_decVerdict hp (decVerdict_of_count_zero henv he hc),
    fun hp henv he hc => exec_decEnd_of_decVerdict hp (decVerdict_of_count_one henv he hc),
    fun hp henv he hc => exec_decEnd_of_decVerdict hp (decVerdict_of_tail henv he hc),
    fun hp => execDecEnd_eq_refused.mpr ⟨by simp [hp], rfl⟩⟩

end Sys2Proof.Proofs

/-! PROOF. The symbols of a decode call (42_decode.md R162): runs of `DEC_SYM` as a fold, and the first scan error, which they keep. -/

namespace Sys2Proof.Proofs

open Sys2Proof.Machine Sys2Proof.Laws

section

variable {cfg : Cfg} {d d' : Decoder} {c : Sym} {i : Instr} {s t u : State}

/-! ### Runs -/

theorem runCommands_cons_eq_next {is : List Instr} :
    runCommands (i :: is) s = .next u ↔ ∃ t, exec i s = .next t ∧ runCommands is t = .next u := by
  rw [runCommands_cons (decode_encode i)]
  cases exec i s <;> simp

/-- An accepted run of symbols folds `decTake` over them. -/
theorem eq_of_runCommands_decSyms {text : List Sym} (h : runCommands (text.map .decSym) s = .next t) :
    t = s.setDec (text.foldl (decTake s.cfg) s.dec) := by
  induction text generalizing s with
  | nil => exact (Host.Outcome.next.inj h).symm
  | cons c text ih =>
    obtain ⟨v, hv, hrun⟩ := runCommands_cons_eq_next.mp h
    obtain ⟨-, -, rfl⟩ := execDecSym_eq_next.mp hv
    exact ih hrun

/-- Symbols given to an open decoder are all accepted if every engine state `P` leaves room for the next one, and `P` is kept. -/
theorem exists_runCommands_decSyms {P : Decoder → Prop} (hP : P s.dec) (hopen : s.dec.phase = .opened)
    (hstep : ∀ d c, P d → roomFor s.bufCap d.buf (decTake s.cfg d c).buf = true ∧ P (decTake s.cfg d c)) (text : List Sym) :
    ∃ d, runCommands (text.map .decSym) s = .next (s.setDec d) ∧ d.phase = .opened ∧ P d := by
  induction text generalizing s with
  | nil => exact ⟨s.dec, rfl, hopen, hP⟩
  | cons c text ih =>
    obtain ⟨hroom, hkeep⟩ := hstep s.dec c hP
    obtain ⟨d, hrun, hd⟩ := ih (s := s.setDec (decTake s.cfg s.dec c)) hkeep (by simpa using hopen) hstep
    exact ⟨d, (runCommands_cons_of_next (exec_decSym_of_decTake hopen rfl hroom) _).trans hrun, hd⟩

/-- A call up to its end, accepted: the fold starts at the engine `DEC_BEGIN` leaves. -/
theorem eq_of_runCommands_decBegin_decSyms {text : List Sym} (h : runCommands (.decBegin :: text.map .decSym) s = .next t) :
    t = s.setDec (text.foldl (decTake s.cfg) decOpen) := by
  obtain ⟨v, hv, hrun⟩ := runCommands_cons_eq_next.mp h
  obtain ⟨-, rfl⟩ := execDecBegin_eq_next.mp hv
  exact eq_of_runCommands_decSyms hrun

/-- With unbounded buffers a call is accepted up to its end from any idle decoder. -/
theorem runCommands_decBegin_decSyms (hidle : s.dec.phase = .idle) (hcap : s.bufCap = none) (text : List Sym) :
    runCommands (.decBegin :: text.map .decSym) s = .next (s.setDec (text.foldl (decTake s.cfg) decOpen)) := by
  obtain ⟨d, hrun, -⟩ := exists_runCommands_decSyms (s := s.setDec decOpen) (P := fun _ => True) trivial rfl
    (fun d c _ => ⟨by simp [hcap], trivial⟩) text
  have hbegin : exec .decBegin s = .next (s.setDec decOpen) := execDecBegin_eq_next.mpr ⟨hidle, rfl⟩
  have hcall := (runCommands_cons_of_next hbegin _).trans hrun
  rw [hcall, eq_of_runCommands_decBegin_decSyms hcall]

/-! ### The first scan error -/

/-- The registers of the scan hold the same: tuple, count, buffer and error (R160). -/
def SameScan (d d' : Decoder) : Prop := d'.tuple = d.tuple ∧ d'.count = d.count ∧ d'.buf = d.buf ∧ d'.err = d.err

/-- Once a symbol has failed, a further one moves the envelope registers at most (R162). -/
theorem sameScan_takeEnveloped_of_failed (h : d.err ≠ none) : SameScan d (takeEnveloped cfg d c) := by
  unfold takeEnveloped
  split_ifs
  case neg => rw [scan_of_failed (d := { d with hold0 := d.hold1, hold1 := c }) h]; exact ⟨rfl, rfl, rfl, rfl⟩
  all_goals exact ⟨rfl, rfl, rfl, rfl⟩

theorem sameScan_decTake_of_failed (h : d.err ≠ none) : SameScan d (decTake cfg d c) := by
  cases hw : cfg.wrap with
  | false => rw [decTake_of_not_wrap hw, scan_of_failed h]; exact ⟨rfl, rfl, rfl, rfl⟩
  | true => rw [decTake_of_wrap hw]; exact sameScan_takeEnveloped_of_failed h

theorem SameScan.trans {d'' : Decoder} (h : SameScan d d') (h' : SameScan d' d'') : SameScan d d'' := by
  obtain ⟨ht, hc, hb, he⟩ := h
  obtain ⟨ht', hc', hb', he'⟩ := h'
  exact ⟨ht'.trans ht, hc'.trans hc, hb'.trans hb, he'.trans he⟩

/-- Any number of symbols after a failed one is accepted and leaves the scan as it was (R162). -/
theorem exists_runCommands_decSyms_of_failed (hopen : s.dec.phase = .opened) (he : s.dec.err ≠ none) (text : List Sym) :
    ∃ d, runCommands (text.map .decSym) s = .next (s.setDec d) ∧ d.phase = .opened ∧ SameScan s.dec d := by
  refine exists_runCommands_decSyms (P := SameScan s.dec) ⟨rfl, rfl, rfl, rfl⟩ hopen (fun d c hd => ?_) text
  have hd' : SameScan d (decTake s.cfg d c) := by
    obtain ⟨-, -, -, herr⟩ := hd
    exact sameScan_decTake_of_failed (herr ▸ he)
  refine ⟨?_, hd.trans hd'⟩
  obtain ⟨-, -, hbuf, -⟩ := hd'
  rw [hbuf, roomFor_self]

end

/-- Settles O36: the scan registers stay through any run of symbols, and `DEC_END` reports what `D_ERR` holds. -/
theorem firstScanErrorIsKept : Obligations.FirstScanErrorIsKept := fun s text e hopen he => by
  obtain ⟨d, hrun, hphase, htuple, hcount, hbuf, herr⟩ := exists_runCommands_decSyms_of_failed hopen (by simp [he]) text
  refine ⟨s.setDec d, hrun, htuple, hcount, hbuf, herr, hphase, rfl, fun henv => ?_⟩
  exact ⟨_, exec_decEnd_of_decVerdict hphase (decVerdict_of_scan_error henv (herr.trans he)), rfl⟩

end Sys2Proof.Proofs

/-! PROOF. The envelope check (42_decode.md R164 to R167): the decoder engine along an enveloped text, in closed form. -/

namespace Sys2Proof.Proofs

open Sys2Proof.Machine Sys2Proof.Laws

section

variable {cfg : Cfg} {d : Decoder} {bad : Bool} {a b c x y p q : Sym}

/-! ### The delay line -/

/-- The engine `d` of a scan with the first two symbols passed and the symbols `a`, `b` in the delay line; `bad` is `D_ENVBAD`. -/
def fullLine (d : Decoder) (bad : Bool) (a b : Sym) : Decoder :=
  { d with npre := 2, envBad := bad, hold0 := a, hold1 := b, nhold := 2 }

/-- The scan does not read the envelope registers. -/
theorem scan_fullLine : scan cfg (fullLine d bad a b) c = fullLine (scan cfg d c) bad a b := by
  rcases scan_cases cfg d c with
    ⟨he, h⟩ | ⟨he, hc, h0, h⟩ | ⟨he, hc, h0, h⟩ | ⟨he, hc, h⟩ | ⟨i, he, hc, h4, h⟩ | ⟨i, he, hc, h4, h⟩ <;> rw [h]
  · exact scan_of_failed (d := fullLine d bad a b) (Option.isSome_iff_ne_none.mp he)
  · exact (scan_of_shorthand (d := fullLine d bad a b) he hc).trans (takeShorthand_of_eq_zero h0)
  · exact (scan_of_shorthand (d := fullLine d bad a b) he hc).trans (takeShorthand_of_ne_zero h0)
  · exact scan_of_invalid (d := fullLine d bad a b) he hc
  · exact (scan_of_digit (d := fullLine d bad a b) he hc).trans (takeDigit_of_eq_four h4)
  · exact (scan_of_digit (d := fullLine d bad a b) he hc).trans (takeDigit_of_ne_four h4)

/-- A symbol enters a full delay line, and the older held one is scanned (R165). -/
theorem takeEnveloped_fullLine : takeEnveloped cfg (fullLine d bad a b) c = fullLine (scan cfg d a) bad b c :=
  (takeEnveloped_nhold_two rfl rfl).trans (scan_fullLine (d := d) (a := b) (b := c))

/-- Symbols given to a full delay line: of it and them, all but the last two have been scanned. -/
theorem foldl_takeEnveloped_fullLine {content rest : List Sym} (h : a :: b :: rest = content ++ [x, y]) :
    rest.foldl (takeEnveloped cfg) (fullLine d bad a b) = fullLine (content.foldl (scan cfg) d) bad x y := by
  induction content generalizing d a b rest with
  | nil =>
    cases h
    rfl
  | cons c content ih =>
    obtain ⟨rfl, htail⟩ := List.cons.inj h
    cases rest with
    | nil => exact absurd (congrArg List.length htail) (by simp)
    | cons r rest => rw [List.foldl_cons, takeEnveloped_fullLine, ih htail, List.foldl_cons]

/-! ### A text from its start -/

/-- `D_ENVBAD` after a text that begins with `p` and `q`. -/
def prefixBad (p q : Sym) : Bool := p != 0x3C#8 || q != 0x7E#8

theorem foldl_takeEnveloped_one (cfg : Cfg) (p : Sym) :
    [p].foldl (takeEnveloped cfg) decOpen = { decOpen with npre := 1, envBad := p != 0x3C#8 } := rfl

theorem foldl_takeEnveloped_two (cfg : Cfg) (p q : Sym) :
    [p, q].foldl (takeEnveloped cfg) decOpen = { decOpen with npre := 2, envBad := prefixBad p q } := rfl

theorem foldl_takeEnveloped_three (cfg : Cfg) (p q x : Sym) :
    [p, q, x].foldl (takeEnveloped cfg) decOpen = { decOpen with npre := 2, envBad := prefixBad p q, hold0 := x, nhold := 1 } := rfl

/-- The engine after a text of at least four symbols: those between the first two and the last two
have been scanned (R165). -/
theorem foldl_takeEnveloped_text (cfg : Cfg) (p q x y : Sym) (content : List Sym) :
    (p :: q :: (content ++ [x, y])).foldl (takeEnveloped cfg) decOpen
      = fullLine (content.foldl (scan cfg) decOpen) (prefixBad p q) x y := by
  obtain ⟨a, b, rest, h⟩ : ∃ a b rest, a :: b :: rest = content ++ [x, y] :=
    match content with
    | [] => ⟨x, y, [], rfl⟩
    | [a] => ⟨a, x, [y], rfl⟩
    | a :: b :: rest => ⟨a, b, rest ++ [x, y], rfl⟩
  rw [← h, ← foldl_takeEnveloped_fullLine h]
  rfl

/-- A text is shorter than an envelope, or has two symbols, a content and two symbols. -/
theorem envelope_positions (text : List Sym) :
    text = [] ∨ (∃ p, text = [p]) ∨ (∃ p q, text = [p, q]) ∨ (∃ p q x, text = [p, q, x]) ∨
      ∃ p q content x y, text = p :: q :: (content ++ [x, y]) := by
  match text with
  | [] => exact .inl rfl
  | [p] => exact .inr (.inl ⟨p, rfl⟩)
  | [p, q] => exact .inr (.inr (.inl ⟨p, q, rfl⟩))
  | [p, q, x] => exact .inr (.inr (.inr (.inl ⟨p, q, x, rfl⟩)))
  | p :: q :: a :: b :: rest =>
    obtain ⟨x, y, hlast⟩ : ∃ x y, (a :: b :: rest).drop rest.length = [x, y] := List.length_eq_two.mp (by simp; omega)
    refine .inr (.inr (.inr (.inr ⟨p, q, (a :: b :: rest).take rest.length, x, y, ?_⟩)))
    rw [← hlast, List.take_append_drop]

/-- What R165 says of the engine `d` after the symbols `text` of an enveloped call, markers and content. -/
def EnvelopeStreamed (cfg : Cfg) (text : List Sym) (d : Decoder) : Prop :=
  d.npre.val = min text.length 2 ∧ d.nhold.val = min (text.length - 2) 2 ∧
  (d.nhold = 1 → [d.hold0] = text.drop (text.length - 1)) ∧
  (d.nhold = 2 → [d.hold0, d.hold1] = text.drop (text.length - 2)) ∧
  (d.envBad = true ↔ ¬ (text.take 2 <+: [0x3C#8, 0x7E#8])) ∧
  SameScan ((stripEnvelope text).foldl (scan cfg) decOpen) d

@[simp] theorem prefixBad_eq_true_iff : prefixBad p q = true ↔ ¬ ([p, q] <+: [0x3C#8, 0x7E#8]) := by
  simp [prefixBad, imp_iff_not_or]

/-- R165, in each position of a text. -/
theorem envelopeStreamed_foldl (cfg : Cfg) (text : List Sym) :
    EnvelopeStreamed cfg text (text.foldl (takeEnveloped cfg) decOpen) := by
  rcases envelope_positions text with rfl | ⟨p, rfl⟩ | ⟨p, q, rfl⟩ | ⟨p, q, x, rfl⟩ | ⟨p, q, content, x, y, rfl⟩
  · simp [EnvelopeStreamed, SameScan, stripEnvelope, decOpen]
  · rw [foldl_takeEnveloped_one]
    simp [EnvelopeStreamed, SameScan, stripEnvelope, decOpen]
  · rw [foldl_takeEnveloped_two]
    simp [EnvelopeStreamed, SameScan, stripEnvelope, decOpen]
  · rw [foldl_takeEnveloped_three]
    simp [EnvelopeStreamed, SameScan, stripEnvelope, decOpen]
  · rw [foldl_takeEnveloped_text]
    simp [EnvelopeStreamed, SameScan, stripEnvelope, fullLine]

/-! ### The verdict -/

theorem envOk_iff (cfg : Cfg) (d : Decoder) : envOk cfg d = true ↔
    (cfg.wrap = false ∨ (d.npre = 2 ∧ d.envBad = false ∧ d.nhold = 2 ∧ d.hold0 = 0x7E#8 ∧ d.hold1 = 0x3E#8)) := by
  simp [envOk, and_assoc]

/-- The verdict of the registers is the test of the whole text (R167, R168): the delay line is full from the fourth symbol on, and
holds the last two. -/
theorem envOk_foldl_iff (hw : cfg.wrap = true) (text : List Sym) :
    envOk cfg (text.foldl (takeEnveloped cfg) decOpen) = true ↔
      4 ≤ text.length ∧ text.take 2 = [0x3C#8, 0x7E#8] ∧ text.drop (text.length - 2) = [0x7E#8, 0x3E#8] := by
  obtain ⟨hpre, hhold, -, hheld, hbad, -⟩ := envelopeStreamed_foldl cfg text
  generalize text.foldl (takeEnveloped cfg) decOpen = d at *
  by_cases hlen : 4 ≤ text.length
  · have hpre2 : d.npre = 2 := Fin.ext (by simp; omega)
    have hhold2 : d.nhold = 2 := Fin.ext (by simp; omega)
    have hmarker : text.take 2 <+: [0x3C#8, 0x7E#8] ↔ text.take 2 = [0x3C#8, 0x7E#8] :=
      ⟨fun h => h.eq_of_length (by simp; omega), fun h => h ▸ List.prefix_rfl⟩
    have hgood : d.envBad = false ↔ text.take 2 = [0x3C#8, 0x7E#8] := by
      rw [← Bool.not_eq_true, hbad, not_not, hmarker]
    rw [envOk_iff, ← hheld hhold2, hgood]
    simp [hw, hlen, hpre2, hhold2]
  · have hhold2 : d.nhold ≠ 2 := fun h => by rw [h, Fin.val_two] at hhold; omega
    simp [envOk_iff, hw, hlen, hhold2]

theorem decTake_eq_takeEnveloped (hw : cfg.wrap = true) : decTake cfg = takeEnveloped cfg :=
  funext fun _ => funext fun _ => decTake_of_wrap hw

end

/-- Settles O37: the call is accepted, and its engine is the fold of `takeEnveloped`, of which R165 holds at every length. -/
theorem envelopeCheckIsStreamed : Obligations.EnvelopeCheckIsStreamed := fun s text hidle hw hcap => by
  have hrun := runCommands_decBegin_decSyms hidle hcap text
  rw [decTake_eq_takeEnveloped hw] at hrun
  obtain ⟨hpre, hhold, hone, htwo, hbad, htuple, hcount, hbuf, herr⟩ := envelopeStreamed_foldl s.cfg text
  exact ⟨_, hrun, hpre, hhold, hone, htwo, hbad, fun d hd => hd ▸ ⟨htuple, hcount, herr, hbuf⟩⟩

/-- Settles O38: `envOk` register by register, and the registers after the text of a call. -/
theorem envelopeVerdict : Obligations.EnvelopeVerdict := by
  refine ⟨envOk_iff, fun s t text hidle hw hrun => ?_⟩
  rw [eq_of_runCommands_decBegin_decSyms hrun, decTake_eq_takeEnveloped hw]
  exact envOk_foldl_iff hw text

end Sys2Proof.Proofs

/-! PROOF. The records of a run (43_call_level.md R203): an engine and its channel, seen without the rest of the machine, run by
themselves on the engine's own commands. -/

namespace Sys2Proof.Proofs

open Sys2Proof.Machine Sys2Proof.Laws

/-! ### An engine with its channel -/

/-- One of the two engines with its channel: which commands are its own, what an accepted own command makes of the engine and which
records it appends, that other commands leave both alone, and that the first command an idle engine accepts overwrites it. -/
structure EngineView (σ : Type) where
  owns : Instr → Bool
  engine : State → σ
  channel : State → List Record
  idle : σ → Prop
  effect : Cfg → Instr → σ → σ × List Record
  exec_own {i : Instr} {s t : State} (hi : owns i = true) (h : exec i s = .next t) :
    engine t = (effect s.cfg i (engine s)).1 ∧ channel t = channel s ++ (effect s.cfg i (engine s)).2
  exec_other {i : Instr} {s t : State} (hi : owns i = false) (h : exec i s = .next t) :
    engine t = engine s ∧ channel t = channel s
  effect_of_idle {i : Instr} {s t : State} (hi : owns i = true) (h : exec i s = .next t) (hidle : idle (engine s)) (e : σ) :
    effect s.cfg i e = effect s.cfg i (engine s)

/-- The records that own commands append, from an engine on. -/
def EngineView.records {σ : Type} (v : EngineView σ) (cfg : Cfg) : List Instr → σ → List Record
  | [], _ => []
  | i :: is, e => (v.effect cfg i e).2 ++ v.records cfg is (v.effect cfg i e).1

section

variable {σ : Type} (v : EngineView σ) {is is₁ is₂ : List Instr} {s s₁ s₂ t t₁ t₂ : State}

/-- The channel after a run depends on the engine's own commands only (R65). -/
theorem EngineView.channel_of_run (h : runCommands is s = .next t) :
    v.channel t = v.channel s ++ v.records s.cfg (is.filter v.owns) (v.engine s) := by
  induction is generalizing s with
  | nil =>
    obtain rfl : s = t := Host.Outcome.next.inj h
    exact (List.append_nil _).symm
  | cons i is ih =>
    obtain ⟨u, hu, hrun⟩ := runCommands_cons_eq_next.mp h
    obtain ⟨hcfg, -⟩ := exec_keeps_parameters hu
    rw [ih hrun, hcfg]
    cases hi : v.owns i with
    | true =>
      obtain ⟨hengine, hchannel⟩ := v.exec_own hi hu
      rw [hengine, hchannel, List.filter_cons_of_pos hi, List.append_assoc]
      rfl
    | false =>
      obtain ⟨hengine, hchannel⟩ := v.exec_other hi hu
      rw [hengine, hchannel, List.filter_cons_of_neg (by simp [hi])]

/-- What an idle engine holds does not matter for the records (R34). -/
theorem EngineView.records_of_idle (h : runCommands is s = .next t) (hidle : v.idle (v.engine s)) (e : σ) :
    v.records s.cfg (is.filter v.owns) e = v.records s.cfg (is.filter v.owns) (v.engine s) := by
  induction is generalizing s with
  | nil => rfl
  | cons i is ih =>
    obtain ⟨u, hu, hrun⟩ := runCommands_cons_eq_next.mp h
    cases hi : v.owns i with
    | true => rw [List.filter_cons_of_pos hi, records, records, v.effect_of_idle hi hu hidle e]
    | false =>
      obtain ⟨hcfg, -⟩ := exec_keeps_parameters hu
      obtain ⟨hengine, -⟩ := v.exec_other hi hu
      rw [List.filter_cons_of_neg (by simp [hi]), ← hcfg, ← hengine]
      exact ih hrun (hengine ▸ hidle)

/-- Two runs with the same own commands, of one configuration and from idle engines, append the same records. -/
theorem EngineView.same_records (hcfg : s₁.cfg = s₂.cfg) (h₁ : runCommands is₁ s₁ = .next t₁) (h₂ : runCommands is₂ s₂ = .next t₂)
    (hidle : v.idle (v.engine s₂)) (his : is₁.filter v.owns = is₂.filter v.owns) :
    ∃ rs, v.channel t₁ = v.channel s₁ ++ rs ∧ v.channel t₂ = v.channel s₂ ++ rs := by
  refine ⟨_, v.channel_of_run h₁, ?_⟩
  rw [v.channel_of_run h₂, hcfg, his, v.records_of_idle h₂ hidle (v.engine s₁)]

end

/-! ### The encoder and the decoder -/

/-- What an accepted encoder command makes of the encoder, and the records it appends to `ENC_RES`. -/
def encEffect (cfg : Cfg) : Instr → Encoder → Encoder × List Record
  | .encBegin, _ => (encOpen cfg, [])
  | .encByte b, e => (encTake cfg e b, [])
  | .encEnd, e => (.cleared, [okRecord (encOutput cfg e)])
  | .decBegin, e | .decSym _, e | .decEnd, e => (e, [])

/-- What an accepted decoder command makes of the decoder, and the records it appends to `DEC_RES`. -/
def decEffect (cfg : Cfg) : Instr → Decoder → Decoder × List Record
  | .decBegin, _ => (decOpen, [])
  | .decSym c, d => (decTake cfg d c, [])
  | .decEnd, d => (.cleared, [verdictRecord (decVerdict cfg d)])
  | .encBegin, d | .encByte _, d | .encEnd, d => (d, [])

/-- The encoder with `ENC_RES`. -/
def encView : EngineView Encoder where
  owns i := i.isEncoder
  engine := State.enc
  channel := State.encRes
  idle e := e.phase = .idle
  effect := encEffect
  exec_own {i s t} hi h := by
    cases i with
    | encBegin =>
      obtain ⟨-, rfl⟩ := execEncBegin_eq_next.mp h
      exact ⟨rfl, (List.append_nil _).symm⟩
    | encByte b =>
      obtain ⟨-, -, rfl⟩ := execEncByte_eq_next.mp h
      exact ⟨rfl, (List.append_nil _).symm⟩
    | encEnd =>
      obtain ⟨-, rfl⟩ := execEncEnd_eq_next.mp h
      exact ⟨rfl, rfl⟩
    | decBegin | decSym _ | decEnd => cases hi
  exec_other hi h := by
    obtain ⟨_, _, rfl⟩ := exec_decoder_frame hi h
    exact ⟨rfl, rfl⟩
  effect_of_idle {i s t} hi h hidle e := by
    cases i with
    | encBegin => rfl
    | encByte b =>
      obtain ⟨hopen, -⟩ := execEncByte_eq_next.mp h
      simp [hopen] at hidle
    | encEnd =>
      obtain ⟨hopen, -⟩ := execEncEnd_eq_next.mp h
      simp [hopen] at hidle
    | decBegin | decSym _ | decEnd => cases hi

/-- The decoder with `DEC_RES`. -/
def decView : EngineView Decoder where
  owns i := !i.isEncoder
  engine := State.dec
  channel := State.decRes
  idle d := d.phase = .idle
  effect := decEffect
  exec_own {i s t} hi h := by
    cases i with
    | decBegin =>
      obtain ⟨-, rfl⟩ := execDecBegin_eq_next.mp h
      exact ⟨rfl, (List.append_nil _).symm⟩
    | decSym c =>
      obtain ⟨-, -, rfl⟩ := execDecSym_eq_next.mp h
      exact ⟨rfl, (List.append_nil _).symm⟩
    | decEnd =>
      obtain ⟨-, rfl⟩ := execDecEnd_eq_next.mp h
      rw [decFinish_eq]
      exact ⟨rfl, rfl⟩
    | encBegin | encByte _ | encEnd => cases hi
  exec_other hi h := by
    obtain ⟨_, _, rfl⟩ := exec_encoder_frame (by simpa using hi) h
    exact ⟨rfl, rfl⟩
  effect_of_idle {i s t} hi h hidle d := by
    cases i with
    | decBegin => rfl
    | decSym c =>
      obtain ⟨hopen, -⟩ := execDecSym_eq_next.mp h
      simp [hopen] at hidle
    | decEnd =>
      obtain ⟨hopen, -⟩ := execDecEnd_eq_next.mp h
      simp [hopen] at hidle
    | encBegin | encByte _ | encEnd => cases hi

/-- Settles O50: the two engines, each with its channel, as a machine of its own. -/
theorem recordsDependOnConfigurationAndCallOnly : Obligations.RecordsDependOnConfigurationAndCallOnly :=
  fun _ _ _ _ _ _ hcfg _ h₁ h₂ => ⟨fun _ hidle his => encView.same_records hcfg h₁ h₂ hidle his,
    fun _ hidle his => decView.same_records hcfg h₁ h₂ hidle his⟩

end Sys2Proof.Proofs

/-! PROOF. The symbols of an encoded text (43_call_level.md R197, R198): where the shorthand stands, and the length. -/

namespace Sys2Proof.Proofs

open Sys2Proof.Machine Sys2Proof.Laws

section

variable {cfg : Cfg} {t : Tuple} {group before after : List Byte}

/-! ### The symbols of one group -/

/-- Five symbols are symbols of the alphabet. -/
theorem not_mem_syms5 {s : Sym} (hs : s ∉ cfg.alpha.toList) : s ∉ syms5 cfg t := fun hmem => by
  obtain ⟨d, -, hd⟩ := List.mem_map.mp hmem
  exact hs (mem_alpha_toList.mpr ⟨d, hd⟩)

/-- A full group is zero exactly when its bytes are (R126). -/
theorem pack_eq_zero_iff (h : group.length = 4) : pack group = 0#32 ↔ group = [0#8, 0#8, 0#8, 0#8] := by
  obtain ⟨b0, b1, b2, b3, rfl⟩ := List.length_eq_four.mp h
  simp [pack_four_eq_zero]

/-- A full group at a group boundary is encoded on its own (R190). -/
theorem encodeContent_group (h : group.length = 4) :
    encodeContent cfg (group ++ after) = groupSyms cfg (pack group) ++ encodeContent cfg after := by
  obtain ⟨b0, b1, b2, b3, rfl⟩ := List.length_eq_four.mp h
  exact encodeContent_four cfg b0 b1 b2 b3 after

/-! ### Buffers cut at a group boundary -/

/-- What follows a group boundary is encoded on its own (R190). -/
theorem encodeContent_boundary (cfg : Cfg) (h : before.length % 4 = 0) (after : List Byte) :
    encodeContent cfg (before ++ after) = encodeContent cfg before ++ encodeContent cfg after :=
  encodeContent_append cfg after (before.length / 4) before (by omega)

/-- The symbols of a full group stand between those of the bytes before and after it. -/
theorem encodeContent_group_between (hb : before.length % 4 = 0) (hg : group.length = 4) (after : List Byte) :
    encodeContent cfg (before ++ group ++ after)
      = encodeContent cfg before ++ groupSyms cfg (pack group) ++ encodeContent cfg after := by
  rw [List.append_assoc, encodeContent_boundary cfg hb, encodeContent_group hg, List.append_assoc]

/-! ### Lengths -/

/-- Of the groups with the tuples `f j`, the `z` zero ones take one symbol each and the others five. -/
theorem length_flatMap_groupSyms (cfg : Cfg) (f : Nat → Tuple) (l : List Nat) :
    (l.flatMap fun j => groupSyms cfg (f j)).length
      = 5 * (l.length - (l.filter fun j => f j == 0#32).length) + (l.filter fun j => f j == 0#32).length := by
  induction l with
  | nil => rfl
  | cons j l ih =>
    have hle := l.length_filter_le fun j => f j == 0#32
    by_cases h : f j = 0#32
    · simp [h, ih]
      omega
    · simp [h, ih, groupSyms_of_ne_zero]
      omega

/-- A tail of `n` bytes takes `n + 1` symbols. -/
theorem length_tail (cfg : Cfg) (n : Nat) (t : Tuple) (h : n ≤ 4) :
    (if n = 0 then [] else tailSyms cfg n t).length = if 0 < n then n + 1 else 0 := by
  by_cases h0 : n = 0
  · simp [h0]
  · simp [h0, tailSyms_length cfg h, Nat.pos_iff_ne_zero]

/-- The two markers are two symbols each. -/
theorem encodeCall_length (cfg : Cfg) (bytes : List Byte) :
    (encodeCall cfg bytes).length = (encodeContent cfg bytes).length + if cfg.wrap = true then 4 else 0 := by
  cases hw : cfg.wrap <;> simp [encodeCall, hw, prefixMarker, postfixMarker]

end

/-- Settles O20: the buffer is cut at the group boundary; a full group's symbols are `groupSyms`, a tail's are of the alphabet. -/
theorem shorthandOnlyForZeroGroups : Obligations.ShorthandOnlyForZeroGroups := by
  have hzero : ∀ cfg, groupSyms cfg (pack [0#8, 0#8, 0#8, 0#8]) = [0x7A#8] := fun _ => rfl
  refine ⟨fun cfg => ?alone, fun cfg before after hb => ?zero, fun cfg before group after hb hg hne => ?nonzero,
    fun cfg before tail hb h1 h3 => ?tail, fun cfg => ?straddling⟩
  case alone => exact encodeContent_four cfg 0#8 0#8 0#8 0#8 []
  case zero => rw [encodeContent_group_between hb rfl, hzero]
  case nonzero =>
    have hsyms : groupSyms cfg (pack group) = syms5 cfg (pack group) :=
      groupSyms_of_ne_zero cfg (mt (pack_eq_zero_iff hg).mp hne)
    exact ⟨_, encodeContent_group_between hb hg after, by rw [hsyms, syms5_length], fun hz => hsyms ▸ not_mem_syms5 hz⟩
  case tail =>
    refine ⟨tailSyms cfg tail.length (pack tail), ?_, tailSyms_length cfg (by omega) _,
      fun hz hmem => not_mem_syms5 hz (List.mem_of_mem_take hmem)⟩
    rw [encodeContent_boundary cfg hb, encodeContent_short cfg (List.ne_nil_of_length_pos h1) (by omega)]
  case straddling =>
    have h1 : pack [0x01#8, 0#8, 0#8, 0#8] ≠ 0#32 := by decide
    have h2 : pack [0#8, 0x01#8, 0#8, 0#8] ≠ 0#32 := by decide
    rw [encodeContent_four, encodeContent_four, groupSyms_of_ne_zero cfg h1, groupSyms_of_ne_zero cfg h2]
    rfl

/-- Settles O54: the full groups, then the tail, then the markers. -/
theorem encodedLength : Obligations.EncodedLength := fun cfg bytes q n z hq hn hz => by
  subst hq hn hz
  refine ⟨?_, encodeCall_length cfg bytes⟩
  rw [encodeContent, List.length_append, length_flatMap_groupSyms cfg (fun j => pack (fullGroup bytes j)),
    length_tail cfg _ _ (by omega), List.length_range, Nat.one_mul]
  rfl

end Sys2Proof.Proofs

/-! PROOF. The decoder's arithmetic on the encoder's digits (42_decode.md R157): the first digits of a tuple accumulate to the tuple
rounded down, and the bias of a tail brings back the bytes that were packed. -/

namespace Sys2Proof.Proofs

open Sys2Proof.Machine Sys2Proof.Laws

section

variable {t u : Tuple} {n : Nat} {bs : List Byte}

/-! ### The first digits of a tuple -/

theorem take_succ_digits85 (t : Tuple) (h : n < 5) :
    (digits85 t).take (n + 1) = (digits85 t).take n ++ [digitAt t (4 - n)] := by
  rw [digits85_eq]
  match n, h with
  | 0, _ | 1, _ | 2, _ | 3, _ | 4, _ => rfl

theorem digitAt_val (t : Tuple) (k : Nat) : (digitAt t k).val = t.toNat / 85 ^ k % 85 := rfl

/-- The Horner value of the first `n` digits is the tuple without its last `5 - n` digits (R123, R152). -/
theorem hornerDigits_take_digits85 (t : Tuple) (h : n ≤ 5) :
    (hornerDigits ((digits85 t).take n)).toNat = t.toNat / 85 ^ (5 - n) := by
  have hlt := t.isLt
  induction n with
  | zero => exact (Nat.div_eq_of_lt (by omega)).symm
  | succ n ih =>
    have hpow : 85 ^ (5 - n) = 85 ^ (5 - (n + 1)) * 85 := by rw [← pow_succ]; congr 1; omega
    rw [take_succ_digits85 t (by omega), hornerDigits_concat, hornerStep_toNat, ih (by omega), hpow, ← Nat.div_div_eq_div_mul,
      digitAt_val, show 4 - n = 5 - (n + 1) by omega, Nat.div_add_mod', Nat.mod_eq_of_lt ((Nat.div_le_self _ _).trans_lt hlt)]

/-- The first `n` digits accumulate to the tuple rounded down to a multiple of the last place they fill. -/
theorem accDigits_take_digits85 (t : Tuple) (h : n ≤ 5) :
    (accDigits ((digits85 t).take n) 0 0#32).toNat = t.toNat / 85 ^ (5 - n) * 85 ^ (5 - n) := by
  have hlen : ((digits85 t).take n).length = n := by simp [h]
  have hmod := accDigits_modEq_hornerDigits (hlen.trans_le h)
  rw [hlen, hornerDigits_take_digits85 t h] at hmod
  exact hmod.eq_of_lt_of_lt (BitVec.isLt _) ((Nat.div_mul_le_self _ _).trans_lt t.isLt)

/-- All five digits accumulate to the tuple. -/
theorem accDigits_digits85 (t : Tuple) : accDigits (digits85 t) 0 0#32 = t :=
  BitVec.eq_of_toNat_eq ((accDigits_take_digits85 t (Nat.le_refl 5)).trans (by simp))

/-! ### The tail -/

/-- The packed bytes are the first bytes of every tuple that differs from theirs below them only. -/
theorem take_unpack_eq (h : bs.length ≤ 3) (hlo : (pack bs).toNat ≤ u.toNat)
    (hhi : u.toNat < (pack bs).toNat + 2 ^ (32 - 8 * bs.length)) : (unpack u).take bs.length = bs := by
  rw [pack_toNat (by omega)] at hlo hhi
  match bs, h with
  | [], _ => rfl
  | [b0], _ | [b0, b1], _ | [b0, b1, b2], _ =>
    simp only [packSum, List.length_cons, List.length_nil] at hlo hhi
    simp only [unpack, List.length_cons, List.length_nil, List.take_succ_cons, List.take_zero, List.cons.injEq, and_true,
      ← BitVec.toNat_inj, BitVec.extractLsb'_toNat, Nat.shiftRight_eq_div_pow]
    omega

/-- The bias of `k` bytes is smaller than the weight of the last of them. -/
theorem bias_lt {k : Nat} (h1 : 1 ≤ k) (h3 : k ≤ 3) : 85 ^ (4 - k) < 2 ^ (32 - 8 * k) := by
  match k, h1, h3 with
  | 1, _, _ | 2, _, _ | 3, _, _ => decide

/-- The biased tuple of a partial group of `k` bytes does not wrap, and its first `k` bytes are those of the group: the accumulated
value is at most `85^(4-k)` below the packed tuple, which has only zeros under its `k` bytes. -/
theorem biased_tuple_bounds (h1 : 1 ≤ bs.length) (h3 : bs.length ≤ 3) :
    (pack bs).toNat ≤ (accDigits ((digits85 (pack bs)).take (bs.length + 1)) 0 0#32).toNat + 85 ^ (4 - bs.length) ∧
    (accDigits ((digits85 (pack bs)).take (bs.length + 1)) 0 0#32).toNat + 85 ^ (4 - bs.length)
      < (pack bs).toNat + 2 ^ (32 - 8 * bs.length) := by
  have hbias := bias_lt h1 h3
  have hdiv := Nat.div_add_mod' (pack bs).toNat (85 ^ (4 - bs.length))
  have hmod := Nat.mod_lt (pack bs).toNat (show 85 ^ (4 - bs.length) > 0 by positivity)
  rw [accDigits_take_digits85 _ (by omega), show 5 - (bs.length + 1) = 4 - bs.length by omega]
  omega

/-- A packed partial group leaves room for the weight of its last byte. -/
theorem pack_add_le (h : bs.length ≤ 4) : (pack bs).toNat + 2 ^ (32 - 8 * bs.length) ≤ 2 ^ 32 := by
  obtain ⟨q, hq⟩ := pack_low_bits h
  have hpow : 2 ^ 32 = 2 ^ (32 - 8 * bs.length) * 2 ^ (8 * bs.length) := by rw [← pow_add]; congr 1; omega
  have hlt := (pack bs).isLt
  rw [hq, hpow] at hlt ⊢
  rw [← Nat.mul_succ]
  exact Nat.mul_le_mul_left _ (Nat.lt_of_mul_lt_mul_left hlt)

/-- The symbols an encoder keeps of a partial group give back its bytes (R157). -/
theorem tailBytes_accDigits (h1 : 1 ≤ bs.length) (h3 : bs.length ≤ 3) {count : Fin 5} (hc : count.val = bs.length + 1) :
    tailBytes count (accDigits ((digits85 (pack bs)).take (bs.length + 1)) 0 0#32) = bs := by
  obtain ⟨hlo, hhi⟩ := biased_tuple_bounds h1 h3
  have hroom := pack_add_le (bs := bs) (by omega)
  rw [tailBytes_eq, hc, Nat.add_sub_cancel]
  refine take_unpack_eq h3 ?_ ?_ <;> rwa [BitVec.toNat_ofNat, Nat.mod_eq_of_lt (by omega)]

end

end Sys2Proof.Proofs

/-! PROOF. The closed form of a decode call (43_call_level.md R191, R202): its loop symbol by symbol, and how it can end. -/

namespace Sys2Proof.Proofs

open Sys2Proof.Machine Sys2Proof.Laws

section

variable {cfg : Cfg} {c : Sym} {cs : List Sym} {t : Tuple} {count : Fin 5} {out : List Byte} {i : Digit}

/-! ### The loop, symbol by symbol -/

@[simp] theorem decodeContent_nil : decodeContent cfg [] t count out = decodeTail t count out := rfl

theorem decodeContent_shorthand_of_eq_zero (hc : classify cfg c = .shorthand) (h : count = 0) :
    decodeContent cfg (c :: cs) t count out = decodeContent cfg cs t count (out ++ [0#8, 0#8, 0#8, 0#8]) := by
  simp [decodeContent, hc, h]

theorem decodeContent_shorthand_of_ne_zero (hc : classify cfg c = .shorthand) (h : count ≠ 0) :
    decodeContent cfg (c :: cs) t count out = errorRecord .invalidShorthandPlacement := by
  simp [decodeContent, hc, h]

theorem decodeContent_invalid (hc : classify cfg c = .invalid) :
    decodeContent cfg (c :: cs) t count out = errorRecord .invalidSymbol := by
  simp [decodeContent, hc]

theorem decodeContent_digit_of_eq_four (hc : classify cfg c = .digit i) (h : count = 4) :
    decodeContent cfg (c :: cs) t count out = decodeContent cfg cs 0#32 0 (out ++ unpack (accStep t count i)) := by
  simp [decodeContent, hc, h]

theorem decodeContent_digit_of_ne_four (hc : classify cfg c = .digit i) (h : count ≠ 4) :
    decodeContent cfg (c :: cs) t count out = decodeContent cfg cs (accStep t count i) (count + 1) out := by
  simp [decodeContent, hc, h]

theorem decodeTail_of_two_le (h : 2 ≤ count.val) : decodeTail t count out = okRecord (out ++ tailBytes count t) := by
  have h0 : count ≠ 0 := by omega
  have h1 : count ≠ 1 := by omega
  simp [decodeTail, h0, h1]

/-! ### How a call can end -/

/-- The errors that the content of a text can meet (R202). -/
def contentErrors : List Error := [.invalidShorthandPlacement, .invalidSymbol, .truncatedBlock]

/-- The tail is a lone symbol, or appends to the bytes so far. -/
theorem decodeTail_cases (t : Tuple) (count : Fin 5) (out : List Byte) :
    decodeTail t count out = errorRecord .truncatedBlock ∨ ∃ more, decodeTail t count out = okRecord (out ++ more) := by
  rcases (by omega : count = 0 ∨ count = 1 ∨ 2 ≤ count.val) with rfl | rfl | h2
  · exact .inr ⟨[], by simp [decodeTail]⟩
  · exact .inl rfl
  · exact .inr ⟨_, decodeTail_of_two_le h2⟩

/-- The loop ends with an error of the content, or appends to the bytes so far. -/
theorem decodeContent_cases (cfg : Cfg) (cs : List Sym) (t : Tuple) (count : Fin 5) (out : List Byte) :
    (∃ e ∈ contentErrors, decodeContent cfg cs t count out = errorRecord e) ∨
      ∃ more, decodeContent cfg cs t count out = okRecord (out ++ more) := by
  induction cs generalizing t count out with
  | nil => exact (decodeTail_cases t count out).imp_left fun h => ⟨_, by simp [contentErrors], h⟩
  | cons c cs ih =>
    have happend (t' : Tuple) (count' : Fin 5) (bs : List Byte) :
        (∃ e ∈ contentErrors, decodeContent cfg cs t' count' (out ++ bs) = errorRecord e) ∨
          ∃ more, decodeContent cfg cs t' count' (out ++ bs) = okRecord (out ++ more) :=
      (ih t' count' (out ++ bs)).imp_right fun ⟨more, h⟩ => ⟨bs ++ more, by rw [h, List.append_assoc]⟩
    cases hc : classify cfg c with
    | shorthand =>
      by_cases h0 : count = 0
      · rw [decodeContent_shorthand_of_eq_zero hc h0]
        exact happend _ _ _
      · exact .inl ⟨_, by simp [contentErrors], decodeContent_shorthand_of_ne_zero hc h0⟩
    | invalid => exact .inl ⟨_, by simp [contentErrors], decodeContent_invalid hc⟩
    | digit i =>
      by_cases h4 : count = 4
      · rw [decodeContent_digit_of_eq_four hc h4]
        exact happend _ _ _
      · rw [decodeContent_digit_of_ne_four hc h4]
        exact ih _ _ _

/-- A call fails for its envelope, which only an enveloped configuration has, or is the loop over its content. -/
theorem decodeCall_cases (cfg : Cfg) (text : List Sym) :
    (cfg.wrap = true ∧ decodeCall cfg text = errorRecord .malformedEnvelope) ∨
      ∃ content, decodeCall cfg text = decodeContent cfg content 0#32 0 [] := by
  unfold decodeCall
  split_ifs with hw
  · exact .inr ⟨_, rfl⟩
  · exact .inl ⟨hw, rfl⟩
  · exact .inr ⟨_, rfl⟩

/-- The status of a loop over content is 0, 3, 4 or 5. -/
theorem statusCode_decodeContent (cfg : Cfg) (cs : List Sym) (t : Tuple) (count : Fin 5) (out : List Byte) :
    statusCode (decodeContent cfg cs t count out).status ∈ [0#4, 3#4, 4#4, 5#4] := by
  have herror : ∀ e ∈ contentErrors, statusCode (errorRecord e).status ∈ [0#4, 3#4, 4#4, 5#4] := by decide
  rcases decodeContent_cases cfg cs t count out with ⟨e, he, h⟩ | ⟨more, h⟩ <;> rw [h]
  · exact herror e he
  · exact List.mem_cons_self

/-! ### An encode call's record -/

/-- The commands of an encode call append the record of a successful call, whatever the encoder held. -/
theorem encView_records_cmdsEnc (cfg : Cfg) (bytes : List Byte) (e : Encoder) :
    ∃ payload, encView.records cfg (cmdsEnc bytes) e = [okRecord payload] := by
  have hbytes (e : Encoder) : ∃ payload, encView.records cfg (bytes.map .encByte ++ [.encEnd]) e = [okRecord payload] := by
    induction bytes generalizing e with
    | nil => exact ⟨_, rfl⟩
    | cons b bytes ih => exact ih (encTake cfg e b)
  exact hbytes (encOpen cfg)

/-- All commands of an encode call are the encoder's. -/
theorem filter_cmdsEnc (bytes : List Byte) : (cmdsEnc bytes).filter encView.owns = cmdsEnc bytes := by
  refine List.filter_eq_self.mpr fun i hi => ?_
  simp only [cmdsEnc, List.mem_append, List.mem_singleton, List.mem_map] at hi
  rcases hi with (rfl | ⟨b, -, rfl⟩) | rfl <;> rfl

end

/-- Settles O56: a decode call by its envelope and the loop, an encode call by the records of its commands. -/
theorem outcomesOfADecodeCall : Obligations.OutcomesOfADecodeCall := by
  refine ⟨fun cfg text => ?anyCode, fun cfg text hw => ?noEnvelope, fun s t bytes _ hrun => ?encode⟩
  case anyCode =>
    rcases decodeCall_cases cfg text with ⟨-, h⟩ | ⟨content, h⟩ <;> rw [h]
    · decide
    · have hsub : ∀ x ∈ [0#4, 3#4, 4#4, 5#4], x ∈ [0#4, 2#4, 3#4, 4#4, 5#4] := by decide
      exact hsub _ (statusCode_decodeContent cfg content 0#32 0 [])
  case noEnvelope =>
    rcases decodeCall_cases cfg text with ⟨hw', -⟩ | ⟨content, h⟩
    · simp [hw] at hw'
    · have hne : ∀ x ∈ [0#4, 3#4, 4#4, 5#4], x ≠ 2#4 := by decide
      exact h ▸ hne _ (statusCode_decodeContent cfg content 0#32 0 [])
  case encode =>
    obtain ⟨payload, hrecords⟩ := encView_records_cmdsEnc s.cfg bytes s.enc
    have hchannel := encView.channel_of_run hrun
    rw [filter_cmdsEnc] at hchannel
    exact ⟨okRecord payload, hchannel.trans (congrArg (s.encRes ++ ·) hrecords), rfl⟩

end Sys2Proof.Proofs

/-! PROOF. The round trips (43_call_level.md R195, R196, R201): what the loop of a decode call makes of encoded symbols. -/

namespace Sys2Proof.Proofs

open Sys2Proof.Machine Sys2Proof.Laws

section

variable {cfg : Cfg} {cs : List Sym} {t : Tuple} {count count' : Fin 5} {out bs bytes : List Byte} {ds : List Digit}

/-! ### Markers -/

/-- The envelope is taken off before the loop. -/
theorem decodeCall_encodeCall (cfg : Cfg) (bytes : List Byte) :
    decodeCall cfg (encodeCall cfg bytes) = decodeContent cfg (encodeContent cfg bytes) 0#32 0 [] := by
  cases hw : cfg.wrap with
  | false => simp [decodeCall, encodeCall, hw]
  | true =>
    have hgood : envelopeGood (prefixMarker ++ encodeContent cfg bytes ++ postfixMarker) = true := by
      simp [envelopeGood, prefixMarker, postfixMarker]
    have hstrip : stripEnvelope (prefixMarker ++ encodeContent cfg bytes ++ postfixMarker) = encodeContent cfg bytes := by
      simp [stripEnvelope, prefixMarker, postfixMarker]
    simp only [decodeCall, encodeCall, hw, if_true, hgood, hstrip]

/-! ### Digits -/

/-- In a valid alphabet without the shorthand symbol every digit's symbol is read as that digit (R150). -/
theorem classify_alpha (hv : cfg.Valid) (hz : shorthandSym ∉ cfg.alpha.toList) (d : Digit) :
    classify cfg (alpha cfg d) = .digit d := by
  have hne : alpha cfg d ≠ shorthandSym := fun h => hz (mem_alpha_toList.mpr ⟨d, h⟩)
  exact classify_of_inv_some hne ((inv_eq_some_iff hv).mpr rfl)

/-- The loop over symbols of digits that do not complete a group accumulates them. -/
theorem decodeContent_digits (hclass : ∀ d, classify cfg (alpha cfg d) = .digit d) (h : count'.val = count.val + ds.length) :
    decodeContent cfg (ds.map (alpha cfg) ++ cs) t count out = decodeContent cfg cs (accDigits ds count t) count' out := by
  induction ds generalizing t count with
  | nil =>
    obtain rfl : count' = count := Fin.ext h
    rfl
  | cons d ds ih =>
    rw [List.length_cons] at h
    have hne : count ≠ 4 := by omega
    rw [List.map_cons, List.cons_append, decodeContent_digit_of_ne_four (hclass d) hne]
    exact ih (by omega)

/-- The loop over the five symbols of a tuple gives its four bytes. -/
theorem decodeContent_syms5 (hclass : ∀ d, classify cfg (alpha cfg d) = .digit d) :
    decodeContent cfg (syms5 cfg t ++ cs) 0#32 0 out = decodeContent cfg cs 0#32 0 (out ++ unpack t) := by
  have hsplit : digits85 t = (digits85 t).take 4 ++ [digitAt t 0] := take_succ_digits85 t (n := 4) (by omega)
  have hfull : accStep (accDigits ((digits85 t).take 4) 0 0#32) 4 (digitAt t 0) = t := by
    have hacc := accDigits_digits85 t
    rwa [hsplit, accDigits_concat] at hacc
  rw [syms5, hsplit, List.map_append, List.append_assoc, decodeContent_digits (count' := 4) hclass rfl, List.map_singleton,
    List.singleton_append, decodeContent_digit_of_eq_four (hclass _) rfl, hfull]

/-! ### Groups and tails -/

/-- The loop over the symbols of a full group gives its bytes. -/
theorem decodeContent_groupSyms (hclass : ∀ d, classify cfg (alpha cfg d) = .digit d) (h : bs.length = 4) :
    decodeContent cfg (groupSyms cfg (pack bs) ++ cs) 0#32 0 out = decodeContent cfg cs 0#32 0 (out ++ bs) := by
  by_cases h0 : pack bs = 0#32
  · rw [h0, groupSyms_zero, (pack_eq_zero_iff h).mp h0]
    exact decodeContent_shorthand_of_eq_zero (classify_shorthandSym cfg) rfl
  · rw [groupSyms_of_ne_zero cfg h0, decodeContent_syms5 hclass, unpack_pack h]

/-- The loop over the symbols of a partial group gives its bytes. -/
theorem decodeContent_tailSyms (hclass : ∀ d, classify cfg (alpha cfg d) = .digit d) (h1 : 1 ≤ bs.length) (h3 : bs.length ≤ 3) :
    decodeContent cfg (tailSyms cfg bs.length (pack bs)) 0#32 0 out = okRecord (out ++ bs) := by
  obtain ⟨count, hc⟩ : ∃ count : Fin 5, count.val = bs.length + 1 := ⟨⟨bs.length + 1, by omega⟩, rfl⟩
  have hcount : count.val = (0 : Fin 5).val + ((digits85 (pack bs)).take (bs.length + 1)).length := by
    rw [List.length_take, digits85_length, Fin.val_zero]
    omega
  have hdigits := decodeContent_digits (cs := []) (t := 0#32) (out := out) hclass hcount
  rw [List.append_nil, List.map_take, decodeContent_nil, decodeTail_of_two_le (by omega), tailBytes_accDigits h1 h3 hc] at hdigits
  exact hdigits

/-- The loop over an encoded content gives the bytes, group by group. -/
theorem decodeContent_encodeContent (hclass : ∀ d, classify cfg (alpha cfg d) = .digit d) :
    ∀ bytes out : List Byte, decodeContent cfg (encodeContent cfg bytes) 0#32 0 out = okRecord (out ++ bytes)
  | [], out => by simp [decodeTail]
  | b0 :: b1 :: b2 :: b3 :: bs, out => by
    rw [encodeContent_four, decodeContent_groupSyms hclass rfl, decodeContent_encodeContent hclass bs, List.append_assoc]
    rfl
  | [b0], out | [b0, b1], out | [b0, b1, b2], out => by
    rw [encodeContent_short cfg (by simp) (by simp)]
    exact decodeContent_tailSyms hclass (by simp) (by simp)

/-- Decoding an encoded text gives its bytes (R195). -/
theorem decodeCall_encodeCall_eq_ok (hv : cfg.Valid) (hz : shorthandSym ∉ cfg.alpha.toList) (bytes : List Byte) :
    decodeCall cfg (encodeCall cfg bytes) = okRecord bytes := by
  rw [decodeCall_encodeCall, decodeContent_encodeContent (classify_alpha hv hz)]
  rfl

/-! ### An alphabet with the shorthand symbol -/

/-- A group whose first symbol is the shorthand symbol is read as a zero group and what follows. -/
theorem decodeCall_encodeCall_of_shorthand_first {j : Digit} {rest : List Digit} (hj : alpha cfg j = shorthandSym)
    (hlen : bytes.length = 4) (hne : pack bytes ≠ 0#32) (hd : digits85 (pack bytes) = j :: rest) :
    decodeCall cfg (encodeCall cfg bytes) ≠ okRecord bytes := fun hok => by
  have hcontent : encodeContent cfg bytes = shorthandSym :: rest.map (alpha cfg) := by
    have hgroup := encodeContent_group (cfg := cfg) (after := []) hlen
    rwa [List.append_nil, encodeContent_nil, List.append_nil, groupSyms_of_ne_zero cfg hne, syms5, hd, List.map_cons, hj] at hgroup
  rw [decodeCall_encodeCall, hcontent, decodeContent_shorthand_of_eq_zero (classify_shorthandSym cfg) rfl] at hok
  rcases decodeContent_cases cfg (rest.map (alpha cfg)) 0#32 0 ([] ++ [0#8, 0#8, 0#8, 0#8]) with ⟨e, -, h⟩ | ⟨more, h⟩
  · cases hok.symm.trans h
  · have hbytes : bytes = [0#8, 0#8, 0#8, 0#8] ++ more := congrArg Record.payload (hok.symm.trans h)
    have hzero : [0#8, 0#8, 0#8, 0#8] = bytes := (hbytes ▸ List.prefix_append _ more).eq_of_length hlen.symm
    exact hne ((pack_eq_zero_iff hlen).mpr hzero.symm)

/-- The default alphabet ends before the shorthand symbol (R108). -/
theorem shorthandSym_not_mem_default : shorthandSym ∉ defaultCfg.alpha.toList :=
  inv_eq_none_iff.mp (inv_defaultCfg_eq_none (.inr (by decide)))

end

/-- Settles O51: the loop gives back each group; with `z` as first digit it reads a zero group instead. -/
theorem roundTrip : Obligations.RoundTrip :=
  ⟨fun _ bytes hv hz => decodeCall_encodeCall_eq_ok hv hz bytes, shorthandSym_not_mem_default,
    fun _ _ _ _ _ hj hlen hne hd => decodeCall_encodeCall_of_shorthand_first hj hlen hne hd⟩

/-- Settles O52: by the round trip the decoded bytes are those that were encoded. -/
theorem reencodingAnEncodedText : Obligations.ReencodingAnEncodedText := fun cfg bytes bytes' text hv hz htext hdecode => by
  subst htext
  have hbytes : bytes = bytes' := congrArg Record.payload ((decodeCall_encodeCall_eq_ok hv hz bytes).symm.trans hdecode)
  rw [hbytes]

/-- Settles O53: the source's cases, evaluated. -/
theorem decodeIsNotInjective : Obligations.DecodeIsNotInjective := by
  unfold Obligations.DecodeIsNotInjective
  decide +kernel

end Sys2Proof.Proofs

/-! PROOF. Errors of a decode call (60_exceptions.md R218, R220): the closed form as the record of the scanned content, the order of causes,
and what a command lets be seen of a call. -/

namespace Sys2Proof.Proofs

open Sys2Proof.Machine Sys2Proof.Laws

section

variable {cfg : Cfg} {d : Decoder} {c : Sym} {content earlier later text : List Sym} {i : Instr} {s t : State}

/-! ### The tail -/

/-- A lone last symbol (R191). -/
theorem decodeTail_one (t : Tuple) (out : List Byte) : decodeTail t 1 out = errorRecord .truncatedBlock := rfl

theorem decodeTail_status_of_ne_one (t : Tuple) (out : List Byte) {count : Fin 5} (h : count ≠ 1) :
    (decodeTail t count out).status = .ok := by
  rcases (by omega : count = 0 ∨ 2 ≤ count.val) with rfl | h2
  · rfl
  · rw [decodeTail_of_two_le h2]
    rfl

/-! ### The record of a scanned content -/

/-- What a call with a good envelope comes to, by the engine after its content: the scan error, else the tail (R191). -/
def contentRecord (d : Decoder) : Record :=
  match d.err with
  | some e => errorRecord (scanErrorAsError e)
  | none => decodeTail d.tuple d.count d.buf

theorem contentRecord_of_no_err (he : d.err = none) : contentRecord d = decodeTail d.tuple d.count d.buf := by
  simp [contentRecord, he]

/-- After a failure nothing of the content is looked at (R162): the error stands. -/
theorem contentRecord_foldl_of_err {e : ScanError} (he : d.err = some e) :
    contentRecord (content.foldl (scan cfg) d) = errorRecord (scanErrorAsError e) := by
  rw [List.foldl_fixed' fun _ => scan_of_failed (by simp [he])]
  simp [contentRecord, he]

/-- A content whose scan fails at a symbol has that error, whatever precedes and follows the symbol. -/
theorem contentRecord_of_scan_err {e : ScanError}
    (h : scan cfg (earlier.foldl (scan cfg) d) c = { earlier.foldl (scan cfg) d with err := some e }) :
    contentRecord ((earlier ++ c :: later).foldl (scan cfg) d) = errorRecord (scanErrorAsError e) := by
  rw [List.foldl_append, List.foldl_cons, h]
  exact contentRecord_foldl_of_err rfl

/-- The loop of R191 ends with the record of the scanned content. -/
theorem decodeContent_eq_contentRecord (he : d.err = none) :
    decodeContent cfg content d.tuple d.count d.buf = contentRecord (content.foldl (scan cfg) d) := by
  induction content generalizing d with
  | nil => exact (contentRecord_of_no_err he).symm
  | cons c content ih =>
    have hrest := ih (d := scan cfg d c)
    rw [List.foldl_cons]
    rcases scan_cases cfg d c with
      ⟨hfailed, h⟩ | ⟨-, hc, h0, h⟩ | ⟨-, hc, h0, h⟩ | ⟨-, hc, h⟩ | ⟨i, -, hc, h4, h⟩ | ⟨i, -, hc, h4, h⟩ <;>
      rw [h] at hrest ⊢
    · simp [he] at hfailed
    · exact (decodeContent_shorthand_of_eq_zero hc h0).trans (hrest he)
    · exact (decodeContent_shorthand_of_ne_zero hc h0).trans (contentRecord_foldl_of_err (e := .shorthandPlacement) rfl).symm
    · exact (decodeContent_invalid hc).trans (contentRecord_foldl_of_err (e := .symbol) rfl).symm
    · exact (decodeContent_digit_of_eq_four hc h4).trans (hrest he)
    · exact (decodeContent_digit_of_ne_four hc h4).trans (hrest he)

/-! ### The call -/

/-- The envelope test comes first (R218). -/
theorem decodeCall_of_envelope_bad (hw : cfg.wrap = true) (henv : envelopeGood text = false) :
    decodeCall cfg text = errorRecord .malformedEnvelope := by
  simp [decodeCall, hw, henv]

/-- A call whose envelope, if it has one, is good comes to the record of its scanned content. -/
theorem decodeCall_eq_contentRecord (hwrap : cfg.wrap = true → envelopeGood text = true ∧ content = stripEnvelope text)
    (hplain : cfg.wrap = false → content = text) :
    decodeCall cfg text = contentRecord (content.foldl (scan cfg) decOpen) := by
  have hloop : decodeCall cfg text = decodeContent cfg content decOpen.tuple decOpen.count decOpen.buf := by
    cases hw : cfg.wrap with
    | false => simp [decodeCall, hw, hplain hw, decOpen]
    | true =>
      obtain ⟨hgood, rfl⟩ := hwrap hw
      simp [decodeCall, hw, hgood, decOpen]
  exact hloop.trans (decodeContent_eq_contentRecord rfl)

/-! ### What is visible -/

/-- Only `DEC_END` writes `DEC_RES` (R31). -/
theorem exec_keeps_decRes (h : exec i s = .next t) (hi : i ≠ .decEnd) : t.decRes = s.decRes := by
  cases i with
  | decBegin =>
    obtain ⟨-, rfl⟩ := execDecBegin_eq_next.mp h
    rfl
  | decSym c =>
    obtain ⟨-, -, rfl⟩ := execDecSym_eq_next.mp h
    rfl
  | decEnd => exact absurd rfl hi
  | encBegin | encByte _ | encEnd =>
    obtain ⟨_, _, rfl⟩ := exec_encoder_frame rfl h
    rfl

/-- `DEC_END` appends the record of its verdict. -/
theorem exec_decEnd_decRes (h : exec .decEnd s = .next t) : t.decRes = s.decRes ++ [verdictRecord (decVerdict s.cfg s.dec)] := by
  obtain ⟨-, rfl⟩ := execDecEnd_eq_next.mp h
  rw [decFinish_eq, closeDecode_decRes]

/-- A failed verdict publishes no bytes. -/
theorem verdictRecord_payload_of_failed {v : Except Error (List Byte)} (h : (verdictRecord v).status ≠ .ok) :
    (verdictRecord v).payload = [] := by
  cases v with
  | error e => rfl
  | ok bytes => exact absurd rfl h

end

/-- Settles O39: the envelope before the content, in the content the scan's first error, without one its tail. -/
theorem callErrorPriority : Obligations.CallErrorPriority := by
  refine fun cfg text => ⟨decodeCall_of_envelope_bad, fun content hwrap hplain => ?_⟩
  rw [decodeCall_eq_contentRecord hwrap hplain]
  refine ⟨?scanError, ?tail⟩
  case scanError =>
    rintro earlier c later d rfl rfl he
    refine ⟨?_, fun hc hinv => contentRecord_of_scan_err (scan_of_invalid he (classify_of_inv_none hc hinv))⟩
    rintro rfl hcount
    exact contentRecord_of_scan_err ((scan_of_shorthand he (classify_shorthandSym cfg)).trans (takeShorthand_of_ne_zero hcount))
  case tail =>
    rintro d rfl he
    rw [contentRecord_of_no_err he]
    exact ⟨fun h1 => h1 ▸ decodeTail_one _ _, decodeTail_status_of_ne_one _ _⟩

/-- Settles O40: the channel after each command, and the two verdicts of `DEC_END`. -/
theorem noPartialResults : Obligations.NoPartialResults := by
  refine fun i s t h => ⟨exec_keeps_decRes h, ?_⟩
  rintro rfl
  exact ⟨_, exec_decEnd_decRes h, verdictRecord_payload_of_failed⟩

end Sys2Proof.Proofs

/-! PROOF. The reset event (70_reset_and_hazards.md R240): what the registers hold after it, and which commands are accepted. -/

namespace Sys2Proof.Proofs

open Sys2Proof.Machine Sys2Proof.Laws

section

variable {i : Instr} {s : State}

/-- After the event the registers hold 0, the buffers nothing (R34). -/
theorem readReg_applyReset (s : State) (r : Reg) :
    readReg (applyReset s) r = .sequence [] ∨ ∃ width, readReg (applyReset s) r = .bits width 0 := by
  cases r with
  | eBuf | dBuf => exact .inl rfl
  | ePhase | eCount | eTuple | dPhase | dCount | dTuple | dErr | dNpre | dEnvbad | dHold0 | dHold1 | dNhold =>
    exact .inr ⟨_, rfl⟩

/-- Every command but the two BEGINs needs an open call (R83). -/
theorem admittedPhase_of_not_begin (henc : i ≠ .encBegin) (hdec : i ≠ .decBegin) : admittedPhase i = .opened := by
  cases i with
  | encBegin => exact absurd rfl henc
  | decBegin => exact absurd rfl hdec
  | encByte _ | encEnd | decSym _ | decEnd => rfl

/-- Between calls, only the two BEGINs are accepted. -/
theorem exec_refused_of_idle (henc : s.enc.phase = .idle) (hdec : s.dec.phase = .idle) (hi : admittedPhase i = .opened) :
    exec i s = .refused .protocolViolation := by
  refine exec_eq_protocolViolation.mpr ?_
  rw [phaseAdmits, ownPhase, henc, hdec, ite_self, hi]
  exact Phase.noConfusion

end

/-- Settles O6: the state after the event is that of `applyReset`, whose engines are cleared. -/
theorem resetEventResetsEverything : Obligations.ResetEventResetsEverything := by
  refine fun s rest hin => ⟨applyReset { s with input := rest }, step_eq_next.mpr (.inl ⟨rest, hin, rfl⟩),
    readReg_applyReset _, rfl, rfl, rfl, rfl, rfl, ⟨_, execEncBegin_eq_next.mpr ⟨rfl, rfl⟩⟩,
    ⟨_, execDecBegin_eq_next.mpr ⟨rfl, rfl⟩⟩, fun i henc hdec => ?_⟩
  exact exec_refused_of_idle rfl rfl (admittedPhase_of_not_begin henc hdec)

end Sys2Proof.Proofs

/-! PROOF. The closed forms of the records of whole calls (43_call_level.md R194): what `ENC_END` and `DEC_END` publish after the data of a
call, and the records of calls that follow one another. -/

namespace Sys2Proof.Proofs

open Sys2Proof.Machine Sys2Proof.Laws

section

variable {cfg : Cfg} {d d' : Decoder}

/-! ### Encode calls -/

/-- What `ENC_END` publishes after the bytes of a call is `encode(CFG, B)` (R190). -/
theorem encOutput_encAfter (cfg : Cfg) (bytes : List Byte) : encOutput cfg (encAfter cfg bytes) = encodeCall cfg bytes := by
  have hcount : (encAfter cfg bytes).count = 0 ↔ bytes.length % 4 = 0 := Fin.ext_iff
  simp only [encOutput, hcount, encodeCall, encodeContent, ← List.append_assoc]
  rfl

/-- The bytes of a call, from the engine `ENC_BEGIN` leaves. -/
theorem foldl_encTake (cfg : Cfg) (bytes : List Byte) : bytes.foldl (encTake cfg) (encOpen cfg) = encAfter cfg bytes := by
  induction bytes using List.reverseRecOn with
  | nil => exact (encAfter_nil cfg).symm
  | append_singleton bytes b ih => rw [List.foldl_concat, ih, encTake_encAfter]

/-- The record of the bytes still to come and `ENC_END`, from any engine on. -/
theorem encView_records_encBytes (cfg : Cfg) (bytes : List Byte) (e : Encoder) :
    encView.records cfg (bytes.map .encByte ++ [.encEnd]) e = [okRecord (encOutput cfg (bytes.foldl (encTake cfg) e))] := by
  induction bytes generalizing e with
  | nil => rfl
  | cons b bytes ih => exact ih (encTake cfg e b)

/-- An encode call appends its closed form, whatever the encoder held before. -/
theorem encView_records_call (cfg : Cfg) (bytes : List Byte) (e : Encoder) :
    encView.records cfg (cmdsEnc bytes) e = [okRecord (encodeCall cfg bytes)] := by
  rw [← encOutput_encAfter, ← foldl_encTake]
  exact encView_records_encBytes cfg bytes (encOpen cfg)

/-! ### Decode calls -/

theorem contentRecord_of_sameScan (h : SameScan d d') : contentRecord d' = contentRecord d := by
  obtain ⟨htuple, hcount, hbuf, herr⟩ := h
  rw [contentRecord, contentRecord, htuple, hcount, hbuf, herr]

/-- Under a good envelope `DEC_END` publishes the record of the scanned content. -/
theorem verdictRecord_of_envOk (h : envOk cfg d = true) : verdictRecord (decVerdict cfg d) = contentRecord d := by
  cases he : d.err with
  | some e => rw [decVerdict_of_scan_error h he, contentRecord, he]; rfl
  | none =>
    rw [contentRecord_of_no_err he]
    rcases (by omega : d.count = 0 ∨ d.count = 1 ∨ 2 ≤ d.count.val) with h0 | h1 | h2
    · rw [decVerdict_of_count_zero h he h0, h0]; rfl
    · rw [decVerdict_of_count_one h he h1, h1]; rfl
    · rw [decVerdict_of_tail h he h2, decodeTail_of_two_le h2]; rfl

/-- The two spellings of the envelope test (R167, R168). -/
theorem envelopeGood_iff {text : List Sym} : envelopeGood text = true ↔
    4 ≤ text.length ∧ text.take 2 = [0x3C#8, 0x7E#8] ∧ text.drop (text.length - 2) = [0x7E#8, 0x3E#8] := by
  simp [envelopeGood, prefixMarker, postfixMarker, and_assoc]

/-- What `DEC_END` publishes after the symbols of a call is `decode(CFG, T)` (R191). -/
theorem verdictRecord_of_text (cfg : Cfg) (text : List Sym) :
    verdictRecord (decVerdict cfg (text.foldl (decTake cfg) decOpen)) = decodeCall cfg text := by
  cases hw : cfg.wrap with
  | false =>
    have hscan : decTake cfg = scan cfg := funext fun _ => funext fun _ => decTake_of_not_wrap hw
    rw [hscan, verdictRecord_of_envOk ((envOk_iff _ _).mpr (.inl hw))]
    exact (decodeCall_eq_contentRecord (by simp [hw]) fun _ => rfl).symm
  | true =>
    have hgood : envOk cfg (text.foldl (decTake cfg) decOpen) = envelopeGood text := by
      rw [decTake_eq_takeEnveloped hw, Bool.eq_iff_iff, envOk_foldl_iff hw, envelopeGood_iff]
    cases henv : envelopeGood text with
    | false => rw [decVerdict_of_envelope_bad (hgood.trans henv), decodeCall_of_envelope_bad hw henv]; rfl
    | true =>
      obtain ⟨-, -, -, -, -, hsame⟩ := envelopeStreamed_foldl cfg text
      rw [verdictRecord_of_envOk (hgood.trans henv), decTake_eq_takeEnveloped hw, contentRecord_of_sameScan hsame]
      exact (decodeCall_eq_contentRecord (fun _ => ⟨henv, rfl⟩) (by simp [hw])).symm

/-- The record of the symbols still to come and `DEC_END`, from any engine on. -/
theorem decView_records_decSyms (cfg : Cfg) (text : List Sym) (d : Decoder) :
    decView.records cfg (text.map .decSym ++ [.decEnd]) d
      = [verdictRecord (decVerdict cfg (text.foldl (decTake cfg) d))] := by
  induction text generalizing d with
  | nil => rfl
  | cons c text ih => exact ih (decTake cfg d c)

/-- A decode call appends its closed form, whatever the decoder held before. -/
theorem decView_records_call (cfg : Cfg) (text : List Sym) (d : Decoder) :
    decView.records cfg (cmdsDec text) d = [decodeCall cfg text] := by
  rw [← verdictRecord_of_text]
  exact decView_records_decSyms cfg text decOpen

/-! ### Calls that follow one another -/

/-- The records of a list of commands are those of its first part, then those of the rest from some engine on. -/
theorem EngineView.exists_records_append {σ : Type} (v : EngineView σ) (cfg : Cfg) (is js : List Instr) (e : σ) :
    ∃ e', v.records cfg (is ++ js) e = v.records cfg is e ++ v.records cfg js e' := by
  induction is generalizing e with
  | nil => exact ⟨e, rfl⟩
  | cons i is ih =>
    obtain ⟨e', h⟩ := ih (v.effect cfg i e).1
    refine ⟨e', ?_⟩
    rw [List.cons_append, records, records, h, List.append_assoc]

/-- If each call appends its record from any engine on, a sequence of calls appends theirs in order. -/
theorem EngineView.records_calls {σ α : Type} (v : EngineView σ) {call : α → List Instr} {record : α → Record}
    (hcall : ∀ a e, v.records cfg (call a) e = [record a]) (calls : List α) (e : σ) :
    v.records cfg (calls.flatMap call) e = calls.map record := by
  induction calls generalizing e with
  | nil => rfl
  | cons a calls ih =>
    obtain ⟨e', h⟩ := v.exists_records_append cfg (call a) (calls.flatMap call) e
    rw [List.flatMap_cons, h, hcall, ih]
    rfl

end

end Sys2Proof.Proofs

/-! PROOF. The legal order (70_reset_and_hazards.md R245): a run is accepted when the phases of each engine allow its own commands, and the
phases lead from idle to idle exactly along whole calls. The Boolean `e` names an engine, as `Instr.isEncoder` does. -/

namespace Sys2Proof.Proofs

open Sys2Proof.Machine Sys2Proof.Laws

section

variable {cfg : Cfg} {e : Bool} {i : Instr} {is : List Instr} {p q : Phase} {s t : State}

/-! ### Phases along the commands of one engine -/

/-- The phase in which an accepted command leaves its engine (R23, R25). -/
def phaseAfter : Instr → Phase
  | .encBegin | .encByte _ | .decBegin | .decSym _ => .opened
  | .encEnd | .decEnd => .idle

/-- The phase of an engine after a list of its commands, from the phase `p`; `none` when one of them is not admitted (R83). -/
def phaseRun : Phase → List Instr → Option Phase
  | p, [] => some p
  | p, i :: is => if p = admittedPhase i then phaseRun (phaseAfter i) is else none

@[simp] theorem phaseRun_nil (p : Phase) : phaseRun p [] = some p := rfl

theorem phaseRun_cons_eq_some : phaseRun p (i :: is) = some q ↔ p = admittedPhase i ∧ phaseRun (phaseAfter i) is = some q := by
  simp [phaseRun]

theorem phaseRun_append (p : Phase) (is js : List Instr) :
    phaseRun p (is ++ js) = (phaseRun p is).bind fun q => phaseRun q js := by
  induction is generalizing p with
  | nil => rfl
  | cons i is ih =>
    rw [List.cons_append, phaseRun, phaseRun, ih]
    split <;> rfl

/-! ### Acceptance of a run -/

/-- The phase of an engine. -/
def enginePhase (e : Bool) (s : State) : Phase := if e then s.enc.phase else s.dec.phase

/-- The commands of an engine in a list, in order. -/
def enginePart (e : Bool) (is : List Instr) : List Instr := is.filter fun i => i.isEncoder == e

theorem enginePart_true (is : List Instr) : enginePart true is = encoderPart is := by
  simp [enginePart, encoderPart]

theorem enginePart_false (is : List Instr) : enginePart false is = decoderPart is := by
  simp [enginePart, decoderPart]

theorem enginePart_cons_own (h : i.isEncoder = e) : enginePart e (i :: is) = i :: enginePart e is :=
  List.filter_cons_of_pos (by simp [h])

theorem enginePart_cons_other (h : i.isEncoder ≠ e) : enginePart e (i :: is) = enginePart e is :=
  List.filter_cons_of_neg (by simp [h])

/-- An accepted command moves the phase of its own engine. -/
theorem enginePhase_exec_own (h : exec i s = .next t) : enginePhase i.isEncoder t = phaseAfter i := by
  cases i with
  | encBegin =>
    obtain ⟨-, rfl⟩ := execEncBegin_eq_next.mp h
    rfl
  | encByte b =>
    obtain ⟨hopen, -, rfl⟩ := execEncByte_eq_next.mp h
    exact (encTake_phase _ _ _).trans hopen
  | encEnd =>
    obtain ⟨-, rfl⟩ := execEncEnd_eq_next.mp h
    rfl
  | decBegin =>
    obtain ⟨-, rfl⟩ := execDecBegin_eq_next.mp h
    rfl
  | decSym c =>
    obtain ⟨hopen, -, rfl⟩ := execDecSym_eq_next.mp h
    exact (decTake_phase _ _ _).trans hopen
  | decEnd =>
    obtain ⟨-, rfl⟩ := execDecEnd_eq_next.mp h
    rw [decFinish_eq]
    rfl

/-- An accepted command leaves the phase of the other engine (R65). -/
theorem enginePhase_exec_other (h : exec i s = .next t) (hi : i.isEncoder ≠ e) : enginePhase e t = enginePhase e s := by
  cases e with
  | true =>
    obtain ⟨_, _, rfl⟩ := exec_decoder_frame (by simpa using hi) h
    rfl
  | false =>
    obtain ⟨_, _, rfl⟩ := exec_encoder_frame (by simpa using hi) h
    rfl

/-- The phases of an engine along a list that begins with an accepted command. -/
theorem phaseRun_enginePart_cons (h : exec i s = .next t) (hi : phaseAdmits i s) (e : Bool) (is : List Instr) :
    phaseRun (enginePhase e s) (enginePart e (i :: is)) = phaseRun (enginePhase e t) (enginePart e is) := by
  by_cases hown : i.isEncoder = e
  · subst hown
    rw [enginePart_cons_own rfl, enginePhase_exec_own h]
    exact if_pos hi
  · rw [enginePart_cons_other hown, enginePhase_exec_other h hown]

/-- With unbounded buffers a run is accepted, and then the phases of both engines are those along their own commands, or it meets a
`ProtocolViolation`, and then the phases of one engine do not admit its own commands. -/
theorem runCommands_cases (hcap : s.bufCap = none) (is : List Instr) :
    (∃ t, runCommands is s = .next t ∧ ∀ e, phaseRun (enginePhase e s) (enginePart e is) = some (enginePhase e t)) ∨
      (runCommands is s = .refused .protocolViolation ∧ ∃ e, phaseRun (enginePhase e s) (enginePart e is) = none) := by
  induction is generalizing s with
  | nil => exact .inl ⟨s, rfl, fun _ => rfl⟩
  | cons i is ih =>
    by_cases hi : phaseAdmits i s
    · obtain ⟨u, hu⟩ := (exec_accepted_iff hcap).mpr hi
      obtain ⟨-, hcap'⟩ := exec_keeps_parameters hu
      simp only [runCommands_cons_of_next hu, phaseRun_enginePart_cons hu hi]
      exact ih (hcap'.trans hcap)
    · refine .inr ⟨?_, i.isEncoder, ?_⟩
      · rw [runCommands_cons (decode_encode i), exec_eq_protocolViolation.mpr hi]
      · rw [enginePart_cons_own rfl]
        exact if_neg hi

/-- A run is accepted exactly when the phases of both engines admit their own commands. -/
theorem exists_runCommands_iff (hcap : s.bufCap = none) :
    (∃ t, runCommands is s = .next t) ↔ ∀ e, ∃ p, phaseRun (enginePhase e s) (enginePart e is) = some p := by
  rcases runCommands_cases hcap is with ⟨t, hrun, hphase⟩ | ⟨hrun, e, hphase⟩
  · exact iff_of_true ⟨t, hrun⟩ fun e => ⟨_, hphase e⟩
  · exact iff_of_false (by simp [hrun]) fun h => by simpa [hphase] using h e

/-! ### Whole calls -/

/-- BEGIN of an engine. -/
def beginCommand (e : Bool) : Instr := if e then .encBegin else .decBegin

/-- The data command of an engine. -/
def dataCommand (e : Bool) (x : BitVec 8) : Instr := if e then .encByte x else .decSym x

/-- END of an engine. -/
def endCommand (e : Bool) : Instr := if e then .encEnd else .decEnd

/-- The commands of a call after its BEGIN. -/
def restOfCall (e : Bool) (xs : List (BitVec 8)) : List Instr := xs.map (dataCommand e) ++ [endCommand e]

/-- The commands of a call (R193). -/
def callCommands (e : Bool) (xs : List (BitVec 8)) : List Instr := beginCommand e :: restOfCall e xs

theorem callCommands_true : callCommands true = cmdsEnc := rfl

theorem callCommands_false : callCommands false = cmdsDec := rfl

/-- A command is BEGIN, data or END of its engine, with the phases of R83. -/
theorem command_cases (i : Instr) :
    (i = beginCommand i.isEncoder ∧ admittedPhase i = .idle ∧ phaseAfter i = .opened) ∨
    (∃ x, i = dataCommand i.isEncoder x ∧ admittedPhase i = .opened ∧ phaseAfter i = .opened) ∨
    (i = endCommand i.isEncoder ∧ admittedPhase i = .opened ∧ phaseAfter i = .idle) := by
  cases i with
  | encBegin | decBegin => exact .inl ⟨rfl, rfl, rfl⟩
  | encByte x | decSym x => exact .inr (.inl ⟨x, rfl, rfl, rfl⟩)
  | encEnd | decEnd => exact .inr (.inr ⟨rfl, rfl, rfl⟩)

/-- The language of R245 for one engine, from each phase: whole calls, before them the rest of a call that is open. -/
def WholeCalls (e : Bool) : Phase → List Instr → Prop
  | .idle, is => ∃ calls : List (List (BitVec 8)), is = calls.flatMap (callCommands e)
  | .opened, is => ∃ (xs : List (BitVec 8)) (calls : List (List (BitVec 8))), is = restOfCall e xs ++ calls.flatMap (callCommands e)

/-- Commands of one engine that lead to idle are whole calls. -/
theorem wholeCalls_of_phaseRun (hown : ∀ i ∈ is, i.isEncoder = e) (h : phaseRun p is = some .idle) : WholeCalls e p is := by
  induction is generalizing p with
  | nil =>
    obtain rfl : p = .idle := Option.some.inj h
    exact ⟨[], rfl⟩
  | cons i is ih =>
    obtain ⟨hi, hown⟩ := List.forall_mem_cons.mp hown
    obtain ⟨rfl, hrest⟩ := phaseRun_cons_eq_some.mp h
    have hcalls := ih hown hrest
    rw [← hi] at hcalls ⊢
    rcases command_cases i with ⟨hc, hp, hq⟩ | ⟨x, hc, hp, hq⟩ | ⟨hc, hp, hq⟩ <;> rw [hq] at hcalls <;> rw [hp, hc]
    · obtain ⟨xs, calls, rfl⟩ := hcalls
      exact ⟨xs :: calls, by simp [callCommands, ← hc]⟩
    · obtain ⟨xs, calls, rfl⟩ := hcalls
      exact ⟨x :: xs, calls, by simp [restOfCall, ← hc]⟩
    · obtain ⟨calls, rfl⟩ := hcalls
      exact ⟨[], calls, by simp [restOfCall, ← hc]⟩

theorem phaseRun_restOfCall (e : Bool) (xs : List (BitVec 8)) : phaseRun .opened (restOfCall e xs) = some .idle := by
  induction xs with
  | nil => cases e <;> rfl
  | cons x xs ih => cases e <;> exact ih

theorem phaseRun_callCommands (e : Bool) (xs : List (BitVec 8)) : phaseRun .idle (callCommands e xs) = some .idle := by
  cases e <;> exact phaseRun_restOfCall _ xs

/-- Whole calls lead from idle to idle. -/
theorem phaseRun_calls (e : Bool) (calls : List (List (BitVec 8))) :
    phaseRun .idle (calls.flatMap (callCommands e)) = some .idle := by
  induction calls with
  | nil => rfl
  | cons xs calls ih => rw [List.flatMap_cons, phaseRun_append, phaseRun_callCommands, Option.bind_some, ih]

/-- The phases lead from idle to idle exactly along whole calls. -/
theorem phaseRun_enginePart_eq_idle (e : Bool) (is : List Instr) : phaseRun .idle (enginePart e is) = some .idle ↔
    ∃ calls : List (List (BitVec 8)), enginePart e is = calls.flatMap (callCommands e) := by
  refine ⟨fun h => wholeCalls_of_phaseRun (fun i hi => ?_) h, fun ⟨calls, h⟩ => h ▸ phaseRun_calls e calls⟩
  exact beq_iff_eq.mp (List.mem_filter.mp hi).2

/-- A list is in legal order exactly when the phases of both engines lead from idle to idle along it (R245). -/
theorem exists_legalOrder_iff (is : List Instr) :
    (∃ bytes texts, LegalOrder is bytes texts) ↔ ∀ e, phaseRun .idle (enginePart e is) = some .idle := by
  simp only [phaseRun_enginePart_eq_idle, Bool.forall_bool, enginePart_true, enginePart_false, callCommands_true,
    callCommands_false, LegalOrder]
  exact ⟨fun ⟨bytes, texts, henc, hdec⟩ => ⟨⟨texts, hdec⟩, bytes, henc⟩,
    fun ⟨⟨texts, hdec⟩, bytes, henc⟩ => ⟨bytes, texts, henc, hdec⟩⟩

/-! ### Closing the open calls -/

/-- The commands that close an engine's call if it is open. -/
def closing (e : Bool) (p : Phase) : List Instr := if p = .opened then [endCommand e] else []

theorem phaseRun_closing (e : Bool) (p : Phase) : phaseRun p (closing e p) = some .idle := by
  cases p <;> cases e <;> rfl

theorem enginePart_append (e : Bool) (is js : List Instr) : enginePart e (is ++ js) = enginePart e is ++ enginePart e js :=
  List.filter_append is js

/-- Of the commands that close both engines' calls, an engine's own are those that close its call. -/
theorem enginePart_closing (e : Bool) (p : Bool → Phase) :
    enginePart e (closing true (p true) ++ closing false (p false)) = closing e (p e) := by
  cases e <;> cases p true <;> cases p false <;> rfl

/-- A list can be continued to a legal order exactly when the phases of both engines admit their own commands. -/
theorem exists_continuation_iff (is : List Instr) :
    (∃ more bytes texts, LegalOrder (is ++ more) bytes texts) ↔ ∀ e, ∃ p, phaseRun .idle (enginePart e is) = some p := by
  simp only [exists_legalOrder_iff, enginePart_append, phaseRun_append]
  constructor
  · rintro ⟨more, h⟩ e
    obtain ⟨p, hp, -⟩ := Option.bind_eq_some_iff.mp (h e)
    exact ⟨p, hp⟩
  · intro h
    choose p hp using h
    refine ⟨closing true (p true) ++ closing false (p false), fun e => ?_⟩
    rw [hp, enginePart_closing, Option.bind_some, phaseRun_closing]

/-! ### Runs from reset -/

theorem enginePhase_resetOf (e : Bool) (cfg : Cfg) (cap : Option Nat) : enginePhase e (State.resetOf cfg cap) = .idle := by
  cases e <;> rfl

/-- A run is accepted exactly when its list can be continued to a legal order. -/
theorem exists_runCommands_reset_iff (cfg : Cfg) (is : List Instr) : (∃ t, runCommands is (State.resetOf cfg none) = .next t) ↔
    ∃ more bytes texts, LegalOrder (is ++ more) bytes texts := by
  rw [exists_runCommands_iff rfl, exists_continuation_iff]
  simp only [enginePhase_resetOf]

/-- An accepted run ends with both engines idle exactly when its list is in legal order. -/
theorem idle_iff_legalOrder (h : runCommands is (State.resetOf cfg none) = .next t) :
    (∀ e, enginePhase e t = .idle) ↔ ∃ bytes texts, LegalOrder is bytes texts := by
  rw [exists_legalOrder_iff]
  rcases runCommands_cases (s := State.resetOf cfg none) rfl is with ⟨u, hrun, hphase⟩ | ⟨hrun, -⟩
  · obtain rfl : u = t := Host.Outcome.next.inj (hrun.symm.trans h)
    simp only [enginePhase_resetOf] at hphase
    simp only [hphase, Option.some.injEq]
  · simp [h] at hrun

/-- The channels after a run in legal order hold the closed forms of its calls, in order (R194). -/
theorem observe_of_legalOrder {bytes : List (List Byte)} {texts : List (List Sym)}
    (h : runCommands is (State.resetOf cfg none) = .next t) (hlegal : LegalOrder is bytes texts) :
    observe t = (bytes.map fun b => okRecord (encodeCall cfg b), texts.map (decodeCall cfg)) := by
  obtain ⟨henc, hdec⟩ := hlegal
  have hencRes : t.encRes = encView.records cfg (encoderPart is) .cleared := encView.channel_of_run h
  have hdecRes : t.decRes = decView.records cfg (decoderPart is) .cleared := decView.channel_of_run h
  rw [observe, hencRes, hdecRes, henc, hdec, encView.records_calls (encView_records_call cfg),
    decView.records_calls (decView_records_call cfg)]

/-- A complete end is an accepted run that leaves both engines idle (R246). -/
theorem runEnd_eq_complete {cap : Option Nat} {observed : List Record × List Record} :
    runEnd cfg cap (asEvents is) = .complete observed ↔
      ∃ t, runCommands is (State.resetOf cfg cap) = .next t ∧ (∀ e, enginePhase e t = .idle) ∧ observe t = observed := by
  unfold runEnd runEndFrom runCommands
  cases feed (asEvents is) (State.resetOf cfg cap) with
  | next t =>
    have hidle : (∀ e, enginePhase e t = .idle) ↔ t.enc.phase = .idle ∧ t.dec.phase = .idle := by
      simp [enginePhase, and_comm]
    simp only [Host.Outcome.next.injEq, exists_eq_left', hidle]
    split_ifs with h <;> simp [h]
  | fault r => cases r
  | refused r => simp

theorem runEnd_of_refused {cap : Option Nat} {r : Refusal} (h : runCommands is (State.resetOf cfg cap) = .refused r) :
    runEnd cfg cap (asEvents is) = .refused r := by
  rw [runCommands] at h
  rw [runEnd, runEndFrom, h]

end

/-- Settles O49: acceptance by the phases of each engine, the language by whole calls, the channels by the records of each call. -/
theorem legalOrderIsWhatRunsToCompletion : Obligations.LegalOrderIsWhatRunsToCompletion := by
  refine fun cfg is => ⟨fun bytes texts hlegal => ?_, fun observed hend => ?_, exists_runCommands_reset_iff cfg is, fun hno => ?_⟩
  · obtain ⟨t, hrun⟩ := (exists_runCommands_reset_iff cfg is).mpr ⟨[], bytes, texts, by rwa [List.append_nil]⟩
    exact runEnd_eq_complete.mpr
      ⟨t, hrun, (idle_iff_legalOrder hrun).mpr ⟨bytes, texts, hlegal⟩, observe_of_legalOrder hrun hlegal⟩
  · obtain ⟨t, hrun, hidle, -⟩ := runEnd_eq_complete.mp hend
    exact (idle_iff_legalOrder hrun).mp hidle
  · rcases runCommands_cases (s := State.resetOf cfg none) rfl is with ⟨t, hrun, -⟩ | ⟨hrun, -⟩
    · exact absurd ((exists_runCommands_reset_iff cfg is).mp ⟨t, hrun⟩) hno
    · exact runEnd_of_refused hrun

end Sys2Proof.Proofs

/-! PROOF. The command port (30_encoding.md R70, 60_exceptions.md R222, R226): a word is the command it encodes, what a step does with it,
and the two causes of a refusal. -/

namespace Sys2Proof.Proofs

open Sys2Proof.Machine Sys2Proof.Laws

section

variable {w : CmdWord} {i : Instr} {e : Reserved} {rest : List HostEvent} {s : State} {r : Refusal}

/-- A step takes the word that is presented and executes its command. -/
theorem step_command (hin : s.input = .command w :: rest) (hd : decode w = .ok i) : step s = exec i { s with input := rest } := by
  simp [step, nextEvent, hin, hd]

/-- Nothing is presented, so there is no step (R226). -/
theorem step_of_no_input (hin : s.input = []) : step s = .refused .noCommand := by
  simp [step, nextEvent, hin]

theorem offer_of_reserved (hd : decode w = .error e) : offer (.command w) s = .refused .reservedEncoding :=
  step_reserved rfl hd

theorem offer_of_command (hd : decode w = .ok i) : offer (.command w) s = exec i s :=
  step_command rfl hd

/-- A refused event leaves the machine as it was (R222). -/
theorem afterEvent_of_refused {ev : HostEvent} (h : offer ev s = .refused r) : afterEvent s ev = s := by
  simp [afterEvent, h]

end

/-- Settles O1: the decoder inverts the encoder, and a word that decodes is the word of its command. -/
theorem wordDecodesToExactlyItsCommand : Obligations.WordDecodesToExactlyItsCommand := fun _ _ => decode_eq_ok_iff

/-- Settles O4: each of the words is the word of its command. -/
theorem sampleWordsDecode : Obligations.SampleWordsDecode :=
  ⟨decode_encode .encBegin, decode_encode (.encByte 0x4D#8), decode_encode (.encByte 0xFF#8), decode_encode .encEnd,
    decode_encode .decBegin, decode_encode (.decSym 0x7A#8), decode_encode (.decSym 0x00#8), decode_encode .decEnd⟩

/-- Settles O5: the two cases of the input. -/
theorem stepExecutesTheDecodedCommand : Obligations.StepExecutesTheDecodedCommand :=
  ⟨fun _ _ _ _ => step_command, fun _ => step_of_no_input⟩

/-- Settles O8: a reserved word has the first cause; a command is executed, which with unbounded buffers refuses the wrong phase only. -/
theorem refusalsHaveTwoCausesAndChangeNothing : Obligations.RefusalsHaveTwoCausesAndChangeNothing := by
  intro s w hcap
  cases hd : decode w with
  | error e =>
    have hoffer : offer (.command w) s = .refused .reservedEncoding := offer_of_reserved hd
    exact ⟨by simp [hoffer], by simp [hoffer], fun r h => .inl (Host.Outcome.refused.inj (h.symm.trans hoffer)),
      fun _ => afterEvent_of_refused⟩
  | ok i =>
    have hoffer : offer (.command w) s = exec i s := offer_of_command hd
    have hcause (r : Refusal) (h : exec i s = .refused r) : r = .protocolViolation := protocolViolation_of_exec_refused hcap h
    refine ⟨?reserved, ?violation, fun r h => .inr (hcause r (hoffer ▸ h)), fun _ => afterEvent_of_refused⟩
    case reserved =>
      rw [hoffer]
      exact iff_of_false (fun h => Refusal.noConfusion (hcause _ h)) (by simp)
    case violation => simp [hoffer, exec_eq_protocolViolation]

end Sys2Proof.Proofs

/-! PROOF. The invariant of the machine (10_state.md R35, 41_encode.md R133, 42_decode.md R172, 43_call_level.md R202,
70_reset_and_hazards.md R250): it holds of the start values, and each engine function keeps its engine's part. -/

namespace Sys2Proof.Proofs

open Sys2Proof.Machine Sys2Proof.Laws

section

variable {cfg : Cfg} {cap : Option Nat} {e : Encoder} {d : Decoder} {b : Byte} {c : Sym} {i : Instr} {s t : State}

/-! ### Buffers within the capacity -/

theorem withinCap_iff {slack : Nat} {buf : List (BitVec 8)} :
    withinCap cap slack buf = true ↔ ∀ n, cap = some n → buf.length ≤ max n slack := by
  cases cap <;> simp [withinCap]

theorem withinCap_of_length_le {slack : Nat} {buf : List (BitVec 8)} (h : buf.length ≤ slack) : withinCap cap slack buf = true :=
  withinCap_iff.mpr fun n _ => h.trans (Nat.le_max_right n slack)

/-- A data command for which there is room leaves its buffer within the capacity (R250). -/
theorem withinCap_of_roomFor {slack : Nat} {old new : List (BitVec 8)} (hold : withinCap cap slack old = true)
    (hroom : roomFor cap old new = true) : withinCap cap slack new = true := by
  refine withinCap_iff.mpr fun n hn => ?_
  rcases roomFor_iff.mp hroom n hn with hle | hle
  · exact hle.trans (withinCap_iff.mp hold n hn)
  · exact hle.trans (Nat.le_max_left n slack)

/-! ### The encoder engine -/

theorem encoderInv_cleared (cfg : Cfg) : EncoderInv cfg .cleared := ⟨fun _ => rfl, rfl, by simp⟩

theorem encoderInv_encOpen (cfg : Cfg) : EncoderInv cfg (encOpen cfg) := by
  refine ⟨by simp [encOpen], rfl, fun _ hw => ?_⟩
  simp [encOpen, hw, prefixMarker]

/-- One more byte leaves zeros below the packed bytes (R133). -/
theorem packStep_low_bits (hlow : e.tuple.toNat % 2 ^ (32 - 8 * e.count.val) = 0) :
    2 ^ (24 - 8 * e.count.val) ∣ (packStep e.tuple e.count b).toNat := by
  have hdvd := Nat.dvd_of_mod_eq_zero hlow
  rw [packStep_toNat hdvd]
  exact dvd_add ((pow_dvd_pow 2 (by omega)).trans hdvd) (Dvd.intro_left _ rfl)

/-- `ENC_BYTE` keeps the encoder's invariant. -/
theorem encoderInv_encTake (hopen : e.phase = .opened) (h : EncoderInv cfg e) : EncoderInv cfg (encTake cfg e b) := by
  obtain ⟨-, hlow, hmarker⟩ := h
  refine ⟨by simp [hopen], ?_⟩
  by_cases h3 : e.count = 3
  · rw [encTake_of_eq_three h3]
    refine ⟨rfl, fun _ hw => ?_⟩
    have htake := hmarker hopen hw
    have hlen : 2 ≤ e.buf.length := by simpa [prefixMarker] using congrArg List.length htake
    rw [List.take_append_of_le_length hlen, htake]
  · rw [encTake_of_ne_three h3]
    refine ⟨?_, hmarker⟩
    have hplace : 32 - 8 * (e.count + 1).val = 24 - 8 * e.count.val := by omega
    rw [hplace]
    exact Nat.mod_eq_zero_of_dvd (packStep_low_bits hlow)

/-! ### The decoder engine -/

/-- The registers of the scan are related (R172): an empty group has an empty tuple, the buffer holds whole groups, and a misplaced
shorthand was found inside a group. -/
def ScanInv (d : Decoder) : Prop :=
  (d.count = 0 → d.tuple = 0#32) ∧ d.buf.length % 4 = 0 ∧ (d.err = some .shorthandPlacement → d.count ≠ 0)

/-- The envelope registers are 0 without an envelope, and fill in the order of R165. -/
def EnvelopeInv (cfg : Cfg) (d : Decoder) : Prop :=
  (cfg.wrap = false → d.npre = 0 ∧ d.nhold = 0 ∧ d.envBad = false ∧ d.hold0 = 0#8 ∧ d.hold1 = 0#8) ∧
  (d.npre ≠ 2 → d.nhold = 0) ∧ (d.npre = 0 → d.envBad = false) ∧ (d.nhold = 0 → d.hold0 = 0#8) ∧ (d.nhold ≠ 2 → d.hold1 = 0#8)

/-- With an envelope nothing has been scanned before the delay line is full (R165). -/
def ScanWaits (cfg : Cfg) (d : Decoder) : Prop := cfg.wrap = true → d.nhold ≠ 2 → d.count = 0 ∧ d.err = none ∧ d.buf = []

/-- The decoder's invariant, by what its registers are for. -/
theorem decoderInv_iff : DecoderInv cfg d ↔
    (d.phase = .idle → d = .cleared) ∧ ScanInv d ∧ EnvelopeInv cfg d ∧ ScanWaits cfg d := by
  simp only [DecoderInv, ScanInv, EnvelopeInv, ScanWaits, and_assoc]

theorem decoderInv_cleared (cfg : Cfg) : DecoderInv cfg .cleared := by
  simp [DecoderInv]

theorem decoderInv_decOpen (cfg : Cfg) : DecoderInv cfg decOpen := by
  simp [DecoderInv, decOpen]

/-- The scan of a symbol keeps the relations of its registers. -/
theorem scanInv_scan (h : ScanInv d) : ScanInv (scan cfg d c) := by
  obtain ⟨htuple, hbuf, hplace⟩ := h
  rcases scan_cases cfg d c with
    ⟨-, hs⟩ | ⟨he, -, h0, hs⟩ | ⟨he, -, h0, hs⟩ | ⟨he, -, hs⟩ | ⟨i, he, -, h4, hs⟩ | ⟨i, he, -, h4, hs⟩ <;> rw [hs]
  · exact ⟨htuple, hbuf, hplace⟩
  · exact ⟨htuple, by simpa using hbuf, hplace⟩
  · exact ⟨htuple, hbuf, fun _ => h0⟩
  · exact ⟨htuple, hbuf, by simp⟩
  · exact ⟨fun _ => rfl, by simpa using hbuf, by simp [he]⟩
  · exact ⟨fun h => absurd h (show d.count + 1 ≠ 0 by omega), hbuf, by simp [he]⟩

/-- The scan of a symbol does not touch the envelope registers. -/
theorem envelopeInv_scan (h : EnvelopeInv cfg d) : EnvelopeInv cfg (scan cfg d c) := by
  obtain ⟨-, hnpre, hbad, hhold0, hhold1, hnhold⟩ := scan_keeps cfg d c
  rwa [EnvelopeInv, hnpre, hbad, hhold0, hhold1, hnhold]

/-- Where the delay line is full, or there is none, the scan waits for nothing. -/
theorem scanWaits_scan (h : cfg.wrap = true → d.nhold = 2) : ScanWaits cfg (scan cfg d c) := by
  obtain ⟨-, -, -, -, -, hnhold⟩ := scan_keeps cfg d c
  exact fun hw hne => absurd (hnhold.trans (h hw)) hne

/-- What a symbol of an enveloped text does, by the position it takes (R165). -/
theorem takeEnveloped_cases (cfg : Cfg) (d : Decoder) (c : Sym) :
    (d.npre ≠ 2 ∧ ∃ bad npre, npre ≠ 0 ∧ takeEnveloped cfg d c = { d with envBad := bad, npre := npre }) ∨
    (d.npre = 2 ∧ d.nhold = 0 ∧ takeEnveloped cfg d c = { d with hold0 := c, nhold := 1 }) ∨
    (d.npre = 2 ∧ d.nhold = 1 ∧ takeEnveloped cfg d c = { d with hold1 := c, nhold := 2 }) ∨
    (d.npre = 2 ∧ d.nhold = 2 ∧ takeEnveloped cfg d c = scan cfg { d with hold0 := d.hold1, hold1 := c } d.hold0) := by
  rcases (by omega : d.npre = 0 ∨ d.npre = 1 ∨ d.npre = 2) with h | h | h
  · exact .inl ⟨by omega, _, _, by decide, takeEnveloped_npre_zero h⟩
  · exact .inl ⟨by omega, _, _, by decide, takeEnveloped_npre_one h⟩
  · rcases (by omega : d.nhold = 0 ∨ d.nhold = 1 ∨ d.nhold = 2) with hh | hh | hh
    · exact .inr (.inl ⟨h, hh, takeEnveloped_nhold_zero h hh⟩)
    · exact .inr (.inr (.inl ⟨h, hh, takeEnveloped_nhold_one h hh⟩))
    · exact .inr (.inr (.inr ⟨h, hh, takeEnveloped_nhold_two h hh⟩))

/-- A symbol of an enveloped text keeps the decoder's relations, whichever position it takes. -/
theorem takeEnveloped_keeps_inv (hw : cfg.wrap = true) (hscan : ScanInv d) (henv : EnvelopeInv cfg d) (hwait : ScanWaits cfg d) :
    ScanInv (takeEnveloped cfg d c) ∧ EnvelopeInv cfg (takeEnveloped cfg d c) ∧ ScanWaits cfg (takeEnveloped cfg d c) := by
  obtain ⟨-, hfill, hbad, hhold0, hhold1⟩ := henv
  have hplain : cfg.wrap ≠ false := by simp [hw]
  have h10 : (1 : Fin 3) ≠ 0 := by decide
  have h20 : (2 : Fin 3) ≠ 0 := by decide
  rcases takeEnveloped_cases cfg d c with ⟨hn, bad, npre, h0, h⟩ | ⟨hn, hh, h⟩ | ⟨hn, hh, h⟩ | ⟨hn, hh, h⟩ <;> rw [h]
  · exact ⟨hscan, ⟨(absurd · hplain), fun _ => hfill hn, (absurd · h0), hhold0, hhold1⟩, hwait⟩
  · exact ⟨hscan, ⟨(absurd · hplain), (absurd hn ·), hbad, (absurd · h10), fun _ => hhold1 (hh ▸ h20.symm)⟩,
      fun _ _ => hwait hw (hh ▸ h20.symm)⟩
  · exact ⟨hscan, ⟨(absurd · hplain), (absurd hn ·), hbad, (absurd · h20), (absurd rfl ·)⟩, fun _ => (absurd rfl ·)⟩
  · have hfull : d.nhold ≠ 0 := hh ▸ h20
    exact ⟨scanInv_scan hscan, envelopeInv_scan ⟨(absurd · hplain), (absurd hn ·), hbad, (absurd · hfull), (absurd hh ·)⟩,
      scanWaits_scan fun _ => hh⟩

/-- `DEC_SYM` keeps the decoder's invariant. -/
theorem decoderInv_decTake (hopen : d.phase = .opened) (h : DecoderInv cfg d) : DecoderInv cfg (decTake cfg d c) := by
  obtain ⟨-, hscan, henv, hwait⟩ := decoderInv_iff.mp h
  refine decoderInv_iff.mpr ⟨by simp [hopen], ?_⟩
  cases hw : cfg.wrap with
  | false =>
    rw [decTake_of_not_wrap hw]
    exact ⟨scanInv_scan hscan, envelopeInv_scan henv, scanWaits_scan (by simp [hw])⟩
  | true =>
    rw [decTake_of_wrap hw]
    exact takeEnveloped_keeps_inv hw hscan henv hwait

/-! ### The channels -/

/-- What R202 and R220 say of a record on `DEC_RES`. -/
def DecRecordOk (cfg : Cfg) (r : Record) : Prop :=
  (r.status ≠ .ok → r.payload = []) ∧ r.status ≠ .error .invalidAlphabet ∧
    (cfg.wrap = false → r.status ≠ .error .malformedEnvelope)

theorem decRecordOk_okRecord (bytes : List Byte) : DecRecordOk cfg (okRecord bytes) :=
  ⟨(absurd rfl ·), Status.noConfusion, fun _ => Status.noConfusion⟩

theorem decRecordOk_errorRecord {x : Error} (halpha : x ≠ .invalidAlphabet) (henv : cfg.wrap = false → x ≠ .malformedEnvelope) :
    DecRecordOk cfg (errorRecord x) :=
  ⟨fun _ => rfl, fun h => halpha (Status.error.inj h), fun hw h => henv hw (Status.error.inj h)⟩

/-- Every verdict makes a record of this kind: code 2 is for a bad envelope only (R202, R220). -/
theorem decRecordOk_verdict (cfg : Cfg) (d : Decoder) : DecRecordOk cfg (verdictRecord (decVerdict cfg d)) := by
  cases henv : envOk cfg d with
  | false =>
    rw [decVerdict_of_envelope_bad henv]
    refine decRecordOk_errorRecord (by decide) fun hw => ?_
    simp [(envOk_iff cfg d).mpr (.inl hw)] at henv
  | true =>
    cases he : d.err with
    | some x =>
      rw [decVerdict_of_scan_error henv he]
      cases x <;> exact decRecordOk_errorRecord (by decide) fun _ => by decide
    | none =>
      rcases (by omega : d.count = 0 ∨ d.count = 1 ∨ 2 ≤ d.count.val) with h0 | h1 | h2
      · rw [decVerdict_of_count_zero henv he h0]; exact decRecordOk_okRecord _
      · rw [decVerdict_of_count_one henv he h1]; exact decRecordOk_errorRecord (by decide) fun _ => by decide
      · rw [decVerdict_of_tail henv he h2]; exact decRecordOk_okRecord _

/-! ### The machine -/

/-- The reset state of a valid configuration satisfies the invariant; the input does not matter. -/
theorem machineInv_reset (hv : cfg.Valid) (hcap : cap ≠ some 0) (input : List HostEvent) :
    MachineInv { State.resetOf cfg cap with input := input } :=
  ⟨hv, hcap, encoderInv_cleared cfg, decoderInv_cleared cfg, by simp [EncResInv], by simp [DecResInv],
    withinCap_of_length_le (by simp), withinCap_of_length_le (by simp)⟩

/-- Every accepted command keeps the invariant. -/
theorem exec_keeps_inv (h : exec i s = .next t) (hinv : MachineInv s) : MachineInv t := by
  obtain ⟨hv, hcap, henc, hdec, hencRes, hdecRes, hebuf, hdbuf⟩ := hinv
  cases i with
  | encBegin =>
    obtain ⟨-, rfl⟩ := execEncBegin_eq_next.mp h
    refine ⟨hv, hcap, encoderInv_encOpen _, hdec, hencRes, hdecRes, withinCap_of_length_le ?_, hdbuf⟩
    cases hw : s.cfg.wrap <;> simp [encOpen, hw, prefixMarker]
  | encByte b =>
    obtain ⟨hopen, hroom, rfl⟩ := execEncByte_eq_next.mp h
    exact ⟨hv, hcap, encoderInv_encTake hopen henc, hdec, hencRes, hdecRes, withinCap_of_roomFor hebuf hroom, hdbuf⟩
  | encEnd =>
    obtain ⟨-, rfl⟩ := execEncEnd_eq_next.mp h
    exact ⟨hv, hcap, encoderInv_cleared _, hdec,
      List.forall_mem_append.mpr ⟨hencRes, List.forall_mem_singleton.mpr rfl⟩, hdecRes,
      withinCap_of_length_le (by simp), hdbuf⟩
  | decBegin =>
    obtain ⟨-, rfl⟩ := execDecBegin_eq_next.mp h
    exact ⟨hv, hcap, henc, decoderInv_decOpen _, hencRes, hdecRes, hebuf, withinCap_of_length_le (by simp [decOpen])⟩
  | decSym c =>
    obtain ⟨hopen, hroom, rfl⟩ := execDecSym_eq_next.mp h
    exact ⟨hv, hcap, henc, decoderInv_decTake hopen hdec, hencRes, hdecRes, hebuf, withinCap_of_roomFor hdbuf hroom⟩
  | decEnd =>
    obtain ⟨-, rfl⟩ := execDecEnd_eq_next.mp h
    rw [decFinish_eq]
    exact ⟨hv, hcap, henc, decoderInv_cleared _, hencRes,
      List.forall_mem_append.mpr ⟨hdecRes, List.forall_mem_singleton.mpr (decRecordOk_verdict _ _)⟩, hebuf,
      withinCap_of_length_le (by simp)⟩

end

/-- Settles O44: the cleared engines, empty channels and empty buffers. -/
theorem invariantHoldsAtReset : Obligations.InvariantHoldsAtReset :=
  ⟨machineInv_reset defaultCfg_valid (by simp) [], fun _ _ hv hcap => machineInv_reset hv hcap []⟩

/-- Settles O45: the reset event leads to the reset state, and a command keeps the invariant of the state without its word. -/
theorem everyStepKeepsTheInvariant : Obligations.EveryStepKeepsTheInvariant := by
  intro s t hinv h
  rcases step_eq_next.mp h with ⟨rest, -, rfl⟩ | ⟨w, rest, i, -, -, hexec⟩
  · obtain ⟨hv, hcap, -⟩ := hinv
    exact machineInv_reset hv hcap rest
  · exact exec_keeps_inv (s := { s with input := rest }) hexec hinv

end Sys2Proof.Proofs

/-! PROOF. Frames of the data commands (10_state.md R23, R25, R30), and that the registers of an idle engine do not matter (R34,
93_implementation_defined.md U11). -/

namespace Sys2Proof.Proofs

open Sys2Proof.Machine Sys2Proof.Laws

section

variable {cfg : Cfg} {e : Encoder} {d : Decoder} {c : Sym} {i : Instr} {s : State} {r : Reg}

/-! ### Buffers grow at the end -/

/-- A byte appends a group's symbols to `E_BUF`, or nothing (R30). -/
theorem encTake_buf_prefix (cfg : Cfg) (e : Encoder) (b : Byte) : e.buf <+: (encTake cfg e b).buf := by
  by_cases h3 : e.count = 3
  · rw [encTake_of_eq_three h3]
    exact List.prefix_append _ _
  · rw [encTake_of_ne_three h3]

/-- A symbol appends bytes to `D_BUF`, or nothing (R30); only the scan can. -/
theorem decTake_buf_prefix (cfg : Cfg) (d : Decoder) (c : Sym) : d.buf <+: (decTake cfg d c).buf := by
  cases hw : cfg.wrap with
  | false =>
    rw [decTake_of_not_wrap hw]
    exact scan_buf_prefix cfg d c
  | true =>
    rw [decTake_of_wrap hw]
    rcases takeEnveloped_cases cfg d c with ⟨-, bad, npre, -, h⟩ | ⟨-, -, h⟩ | ⟨-, -, h⟩ | ⟨-, -, h⟩ <;> rw [h]
    exact scan_buf_prefix cfg { d with hold0 := d.hold1, hold1 := c } d.hold0

/-! ### Registers -/

/-- The encoder's data command writes three registers of R32. -/
theorem readReg_setEnc (hphase : e.phase = s.enc.phase) (htuple : r ≠ .eTuple) (hcount : r ≠ .eCount) (hbuf : r ≠ .eBuf) :
    readReg (s.setEnc e) r = readReg s r := by
  cases r with
  | ePhase => simp [readReg, hphase]
  | eTuple => exact absurd rfl htuple
  | eCount => exact absurd rfl hcount
  | eBuf => exact absurd rfl hbuf
  | dPhase | dCount | dTuple | dErr | dNpre | dEnvbad | dHold0 | dHold1 | dNhold | dBuf => rfl

/-- The decoder's data command writes neither the encoder's registers nor `D_PHASE`. -/
theorem readReg_setDec (hphase : d.phase = s.dec.phase) (hr : regIsEncoder r = true ∨ r = .dPhase) :
    readReg (s.setDec d) r = readReg s r := by
  rcases hr with hr | rfl
  · cases r with
    | ePhase | eCount | eTuple | eBuf => rfl
    | dPhase | dCount | dTuple | dErr | dNpre | dEnvbad | dHold0 | dHold1 | dNhold | dBuf => cases hr
  · simp [readReg, hphase]

/-- A scan leaves the envelope registers. -/
theorem readReg_setDec_scan : ∀ r ∈ [Reg.dNpre, .dEnvbad, .dHold0, .dHold1, .dNhold],
    readReg (s.setDec (scan cfg s.dec c)) r = readReg s r := by
  obtain ⟨-, hnpre, hbad, hhold0, hhold1, hnhold⟩ := scan_keeps cfg s.dec c
  simp [readReg, hnpre, hbad, hhold0, hhold1, hnhold]

/-- Until the delay line is full nothing is scanned (R165). -/
theorem sameScan_takeEnveloped_of_nhold_ne_two (h : d.nhold ≠ 2) : SameScan d (takeEnveloped cfg d c) := by
  rcases takeEnveloped_cases cfg d c with ⟨-, bad, npre, -, ht⟩ | ⟨-, -, ht⟩ | ⟨-, -, ht⟩ | ⟨-, h2, -⟩
  case inr.inr.inr => exact absurd h2 h
  all_goals
    rw [ht]
    exact ⟨rfl, rfl, rfl, rfl⟩

theorem readReg_setDec_of_sameScan (h : SameScan s.dec d) :
    ∀ r ∈ [Reg.dTuple, .dCount, .dErr, .dBuf], readReg (s.setDec d) r = readReg s r := by
  obtain ⟨htuple, hcount, hbuf, herr⟩ := h
  simp [readReg, htuple, hcount, hbuf, herr]

/-! ### An idle engine -/

/-- Every command of an idle engine but its BEGIN needs an open call. -/
theorem exec_refused_of_own_idle (hidle : ownPhase i s = .idle) (henc : i ≠ .encBegin) (hdec : i ≠ .decBegin) :
    exec i s = .refused .protocolViolation := by
  refine exec_eq_protocolViolation.mpr ?_
  rw [phaseAdmits, hidle, admittedPhase_of_not_begin henc hdec]
  exact Phase.noConfusion

end

/-- Settles O41: the engine each data command stores, register by register. -/
theorem dataCommandsFrame : Obligations.DataCommandsFrame := by
  refine ⟨fun b s t h => ?_, fun c s t h => ?_⟩
  · obtain ⟨-, -, rfl⟩ := execEncByte_eq_next.mp h
    exact ⟨fun r => readReg_setEnc (encTake_phase _ _ _), encTake_buf_prefix _ _ _, rfl, rfl, rfl, rfl, rfl⟩
  · obtain ⟨-, -, rfl⟩ := execDecSym_eq_next.mp h
    refine ⟨fun r => readReg_setDec (decTake_phase _ _ _), decTake_buf_prefix _ _ _, fun hw => ?_, fun hw hne => ?_,
      rfl, rfl, rfl, rfl, rfl⟩
    · rw [decTake_of_not_wrap hw]
      exact readReg_setDec_scan
    · rw [decTake_of_wrap hw]
      exact readReg_setDec_of_sameScan (sameScan_takeEnveloped_of_nhold_ne_two hne)

/-- Settles O43: BEGIN overwrites every register, and the other commands are refused. -/
theorem idleRegistersCannotMatter : Obligations.IdleRegistersCannotMatter := by
  refine ⟨fun i s e hi hs he => ?_, fun i s d hi hs hd => ?_⟩
  · by_cases hbegin : i = .encBegin
    · subst hbegin
      have haccepted : exec .encBegin s = .next (s.setEnc (encOpen s.cfg)) := execEncBegin_eq_next.mpr ⟨hs, rfl⟩
      exact (execEncBegin_eq_next.mpr ⟨he, rfl⟩).trans haccepted.symm
    · have hother : i ≠ .decBegin := by rintro rfl; cases hi
      have hrefused (u : State) (hu : u.enc.phase = .idle) : exec i u = .refused .protocolViolation :=
        exec_refused_of_own_idle (by simp [ownPhase, hi, hu]) hbegin hother
      exact (hrefused _ he).trans (hrefused s hs).symm
  · by_cases hbegin : i = .decBegin
    · subst hbegin
      have haccepted : exec .decBegin s = .next (s.setDec decOpen) := execDecBegin_eq_next.mpr ⟨hs, rfl⟩
      exact (execDecBegin_eq_next.mpr ⟨hd, rfl⟩).trans haccepted.symm
    · have hother : i ≠ .encBegin := by rintro rfl; cases hi
      have hrefused (u : State) (hu : u.dec.phase = .idle) : exec i u = .refused .protocolViolation :=
        exec_refused_of_own_idle (by simp [ownPhase, hi, hu]) hother hbegin
      exact (hrefused _ hd).trans (hrefused s hs).symm

end Sys2Proof.Proofs

/-! PROOF. Whole calls on the machine (43_call_level.md R194): from an idle engine, and among commands of the other engine. -/

namespace Sys2Proof.Proofs

open Sys2Proof.Machine Sys2Proof.Laws

section

variable {is : List Instr} {s t : State}

/-! ### A call alone -/

/-- A run that is accepted, and one more command. -/
theorem runCommands_concat (h : runCommands is s = .next t) (i : Instr) : runCommands (is ++ [i]) s = exec i t := by
  induction is generalizing s with
  | nil =>
    obtain rfl : s = t := Host.Outcome.next.inj h
    rw [List.nil_append, runCommands_cons (decode_encode i)]
    cases exec i s <;> rfl
  | cons j is ih =>
    obtain ⟨v, hv, hrun⟩ := runCommands_cons_eq_next.mp h
    rw [List.cons_append, runCommands_cons_of_next hv, ih hrun]

/-- An encode call publishes its closed form and leaves the encoder cleared (R194). -/
theorem runCommands_cmdsEnc (hidle : s.enc.phase = .idle) (hcap : s.bufCap = none) (bytes : List Byte) :
    runCommands (cmdsEnc bytes) s = .next (closeEncode (okRecord (encodeCall s.cfg bytes)) s) := by
  rw [cmdsEnc, List.singleton_append, runCommands_concat (runCommands_encBegin_encBytes hidle hcap bytes)]
  refine execEncEnd_eq_next.mpr ⟨rfl, ?_⟩
  rw [← encOutput_encAfter]
  rfl

theorem foldl_decTake_phase (cfg : Cfg) (text : List Sym) (d : Decoder) : (text.foldl (decTake cfg) d).phase = d.phase := by
  induction text generalizing d with
  | nil => rfl
  | cons c text ih => rw [List.foldl_cons, ih, decTake_phase]

/-- A decode call publishes its closed form and leaves the decoder cleared (R194). -/
theorem runCommands_cmdsDec (hidle : s.dec.phase = .idle) (hcap : s.bufCap = none) (text : List Sym) :
    runCommands (cmdsDec text) s = .next (closeDecode (decodeCall s.cfg text) s) := by
  have hopen : (text.foldl (decTake s.cfg) decOpen).phase = .opened := foldl_decTake_phase s.cfg text decOpen
  rw [cmdsDec, List.singleton_append, runCommands_concat (runCommands_decBegin_decSyms hidle hcap text),
    exec_decEnd_of_decVerdict hopen rfl, ← verdictRecord_of_text]
  rfl

/-! ### A call among commands of the other engine -/

/-- An engine after a run depends on its own commands only (R65). -/
theorem EngineView.engine_of_run {σ : Type} (v : EngineView σ) (h : runCommands is s = .next t) :
    v.engine t = (is.filter v.owns).foldl (fun e i => (v.effect s.cfg i e).1) (v.engine s) := by
  induction is generalizing s with
  | nil =>
    obtain rfl : s = t := Host.Outcome.next.inj h
    rfl
  | cons i is ih =>
    obtain ⟨u, hu, hrun⟩ := runCommands_cons_eq_next.mp h
    obtain ⟨hcfg, -⟩ := exec_keeps_parameters hu
    rw [ih hrun, hcfg]
    cases hi : v.owns i with
    | true =>
      obtain ⟨hengine, -⟩ := v.exec_own hi hu
      rw [hengine, List.filter_cons_of_pos hi, List.foldl_cons]
    | false =>
      obtain ⟨hengine, -⟩ := v.exec_other hi hu
      rw [hengine, List.filter_cons_of_neg (by simp [hi])]

/-- A run whose encoder commands are those of one call appends its closed form and clears the encoder. -/
theorem enc_of_run_of_call {bytes : List Byte} (h : runCommands is s = .next t) (hpart : encoderPart is = cmdsEnc bytes) :
    t.enc = .cleared ∧ t.encRes = s.encRes ++ [okRecord (encodeCall s.cfg bytes)] := by
  have hown : is.filter encView.owns = cmdsEnc bytes := hpart
  have hengine := encView.engine_of_run h
  have hchannel := encView.channel_of_run h
  rw [hown, cmdsEnc, List.foldl_concat] at hengine
  rw [hown, encView_records_call] at hchannel
  exact ⟨hengine, hchannel⟩

/-- A run whose decoder commands are those of one call appends its closed form and clears the decoder. -/
theorem dec_of_run_of_call {text : List Sym} (h : runCommands is s = .next t) (hpart : decoderPart is = cmdsDec text) :
    t.dec = .cleared ∧ t.decRes = s.decRes ++ [decodeCall s.cfg text] := by
  have hown : is.filter decView.owns = cmdsDec text := hpart
  have hengine := decView.engine_of_run h
  have hchannel := decView.channel_of_run h
  rw [hown, cmdsDec, List.foldl_concat] at hengine
  rw [hown, decView_records_call] at hchannel
  exact ⟨hengine, hchannel⟩

end

/-- Settles O46: BEGIN and the bytes, then what `ENC_END` publishes. -/
theorem encodeCallGivesTheClosedForm : Obligations.EncodeCallGivesTheClosedForm :=
  fun _ bytes hidle hcap => runCommands_cmdsEnc hidle hcap bytes

/-- Settles O47: BEGIN and the symbols, then what `DEC_END` publishes. -/
theorem decodeCallGivesTheClosedForm : Obligations.DecodeCallGivesTheClosedForm :=
  fun _ text hidle hcap => runCommands_cmdsDec hidle hcap text

/-- Settles O48: the engine and its channel after the run are those after the engine's own commands. -/
theorem interleavingDoesNotDisturbACall : Obligations.InterleavingDoesNotDisturbACall :=
  fun _ _ _ _ hrun => ⟨fun _ _ => enc_of_run_of_call hrun, fun _ _ => dec_of_run_of_call hrun⟩

end Sys2Proof.Proofs

/-! PROOF. The length of a decoded text (43_call_level.md R199): what the registers of a scan without errors count. -/

namespace Sys2Proof.Proofs

open Sys2Proof.Machine Sys2Proof.Laws

section

variable {cfg : Cfg} {d : Decoder} {c : Sym} {content text : List Sym} {bytes : List Byte}

/-! ### Counting the symbols of a content -/

/-- The number of shorthand symbols of a content (R199). -/
def shorthandCount (content : List Sym) : Nat := (content.filter fun c => c == 0x7A#8).length

/-- The number of the other symbols of a content (R199). -/
def digitCount (content : List Sym) : Nat := (content.filter fun c => c != 0x7A#8).length

theorem counts_concat_shorthand (content : List Sym) :
    shorthandCount (content ++ [shorthandSym]) = shorthandCount content + 1 ∧
      digitCount (content ++ [shorthandSym]) = digitCount content := by
  simp [shorthandCount, digitCount, shorthandSym]

theorem counts_concat_other (content : List Sym) (hc : c ≠ shorthandSym) :
    shorthandCount (content ++ [c]) = shorthandCount content ∧ digitCount (content ++ [c]) = digitCount content + 1 := by
  have hne : c ≠ 0x7A#8 := hc
  simp [shorthandCount, digitCount, hne]

theorem shorthandCount_add_digitCount (content : List Sym) : shorthandCount content + digitCount content = content.length :=
  (content.length_eq_length_filter_add fun c => c == 0x7A#8).symm

theorem ne_shorthandSym_of_classify_digit {i : Digit} (h : classify cfg c = .digit i) : c ≠ shorthandSym := by
  rintro rfl
  cases (classify_shorthandSym cfg).symm.trans h

theorem eq_shorthandSym_of_classify (h : classify cfg c = .shorthand) : c = shorthandSym := by
  rcases classify_cases cfg c with ⟨hc, -⟩ | ⟨-, -, hc⟩ | ⟨i, -, -, hc⟩
  · exact hc
  · cases h.symm.trans hc
  · cases h.symm.trans hc

/-- As long as no symbol fails, `D_COUNT` counts the digits of the open group, and `D_BUF` holds four bytes for each shorthand symbol and
each full group of digits. -/
theorem scan_counts (cfg : Cfg) (content : List Sym) (he : (content.foldl (scan cfg) decOpen).err = none) :
    (content.foldl (scan cfg) decOpen).count.val = digitCount content % 5 ∧
      (content.foldl (scan cfg) decOpen).buf.length = 4 * (shorthandCount content + digitCount content / 5) := by
  induction content using List.reverseRecOn with
  | nil => exact ⟨rfl, rfl⟩
  | append_singleton content c ih =>
    rw [List.foldl_concat] at he ⊢
    generalize content.foldl (scan cfg) decOpen = d at he ih ⊢
    rcases scan_cases cfg d c with
      ⟨hfailed, h⟩ | ⟨hok, hc, h0, h⟩ | ⟨-, -, -, h⟩ | ⟨-, -, h⟩ | ⟨i, hok, hc, h4, h⟩ | ⟨i, hok, hc, h4, h⟩ <;>
      rw [h] at he ⊢
    · simp [he] at hfailed
    · obtain ⟨hcount, hbuf⟩ := ih hok
      obtain ⟨hz, hn⟩ := counts_concat_shorthand content
      rw [eq_shorthandSym_of_classify hc, hz, hn]
      have hzeros : [0#8, 0#8, 0#8, 0#8].length = 4 := rfl
      exact ⟨hcount, by rw [List.length_append, hbuf, hzeros]; omega⟩
    · cases he
    · cases he
    · obtain ⟨hcount, hbuf⟩ := ih hok
      obtain ⟨hz, hn⟩ := counts_concat_other content (ne_shorthandSym_of_classify_digit hc)
      have hlast : digitCount content % 5 = 4 := hcount.symm.trans (congrArg Fin.val h4)
      rw [hz, hn]
      exact ⟨by rw [Fin.val_zero]; omega, by rw [List.length_append, hbuf, unpack_length]; omega⟩
    · obtain ⟨hcount, hbuf⟩ := ih hok
      obtain ⟨hz, hn⟩ := counts_concat_other content (ne_shorthandSym_of_classify_digit hc)
      have hopen : (d.count + 1).val = d.count.val + 1 := by omega
      rw [hz, hn]
      exact ⟨by rw [hopen]; omega, by rw [hbuf]; omega⟩

/-! ### Successful calls -/

/-- A tail that succeeds is no lone symbol, and gives one byte less than its symbols. -/
theorem decodeTail_eq_ok {t : Tuple} {count : Fin 5} {out : List Byte} (h : decodeTail t count out = okRecord bytes) :
    count.val ≠ 1 ∧ bytes.length = out.length + (if 2 ≤ count.val then count.val - 1 else 0) := by
  rcases (by omega : count = 0 ∨ count = 1 ∨ 2 ≤ count.val) with rfl | rfl | h2
  · obtain rfl : out = bytes := congrArg Record.payload h
    exact ⟨by decide, rfl⟩
  · cases (decodeTail_one t out).symm.trans h
  · obtain rfl : out ++ tailBytes count t = bytes := congrArg Record.payload ((decodeTail_of_two_le h2).symm.trans h)
    rw [List.length_append, tailBytes_length, if_pos h2]
    exact ⟨by omega, rfl⟩

theorem contentRecord_eq_ok (h : contentRecord d = okRecord bytes) :
    d.err = none ∧ decodeTail d.tuple d.count d.buf = okRecord bytes := by
  cases he : d.err with
  | none => exact ⟨rfl, (contentRecord_of_no_err he).symm.trans h⟩
  | some e => simp [contentRecord, he, errorRecord, okRecord] at h

/-- A call that succeeds has a good envelope, if it has one, and comes to the record of its scanned content. -/
theorem contentRecord_of_decodeCall_ok (hplain : cfg.wrap = false → content = text)
    (hwrap : cfg.wrap = true → content = stripEnvelope text) (h : decodeCall cfg text = okRecord bytes) :
    contentRecord (content.foldl (scan cfg) decOpen) = okRecord bytes := by
  have hgood (hw : cfg.wrap = true) : envelopeGood text = true := by
    by_contra hbad
    cases (decodeCall_of_envelope_bad hw (Bool.not_eq_true _ ▸ hbad)).symm.trans h
  exact (decodeCall_eq_contentRecord (fun hw => ⟨hgood hw, hwrap hw⟩) hplain).symm.trans h

/-- The length of the bytes of a call that succeeds (R199). -/
theorem decodedLength_of_ok (hplain : cfg.wrap = false → content = text) (hwrap : cfg.wrap = true → content = stripEnvelope text)
    (h : decodeCall cfg text = okRecord bytes) :
    digitCount content % 5 ≠ 1 ∧
      bytes.length = 4 * (shorthandCount content + digitCount content / 5)
        + (if 2 ≤ digitCount content % 5 then digitCount content % 5 - 1 else 0) ∧
      (content.foldl (scan cfg) decOpen).err = none := by
  obtain ⟨he, htail⟩ := contentRecord_eq_ok (contentRecord_of_decodeCall_ok hplain hwrap h)
  obtain ⟨hcount, hbuf⟩ := scan_counts cfg content he
  obtain ⟨hlone, hlen⟩ := decodeTail_eq_ok htail
  rw [hcount] at hlone hlen
  exact ⟨hlone, hbuf ▸ hlen, he⟩

end

/-- Settles O55: the registers at the end of a scan that found no error, then the tail. -/
theorem decodedLength : Obligations.DecodedLength := by
  rintro cfg text content bytes z n hplain hwrap rfl rfl h
  obtain ⟨hlone, hlen, he⟩ := decodedLength_of_ok hplain hwrap h
  obtain ⟨hcount, hbuf⟩ := scan_counts cfg content he
  exact ⟨hlone, hlen, fun d hd => hd ▸ ⟨he, hcount, hbuf⟩⟩

end Sys2Proof.Proofs

/-! PROOF. A finite `BUF_CAP` (70_reset_and_hazards.md R250): which command it refuses, and how much a call can need. -/

namespace Sys2Proof.Proofs

open Sys2Proof.Machine Sys2Proof.Laws

section

variable {cap : Nat} {i : Instr} {s t : State}

/-! ### The bounds a call needs -/

/-- Five symbols for each group, the last one perhaps partial, and the markers. -/
theorem encodeCall_length_le (cfg : Cfg) (bytes : List Byte) : (encodeCall cfg bytes).length ≤ 5 * ((bytes.length + 3) / 4) + 4 := by
  obtain ⟨hcontent, hcall⟩ := encodedLength cfg bytes _ _ _ rfl rfl rfl
  have hzero := (List.range (bytes.length / 4)).length_filter_le fun j => pack ((bytes.drop (4 * j)).take 4) == 0#32
  rw [List.length_range] at hzero
  rw [hcall, hcontent]
  split_ifs <;> omega

/-- The content of a call, from its text. -/
def callContent (cfg : Cfg) (text : List Sym) : List Sym := if cfg.wrap then stripEnvelope text else text

theorem callContent_length_le (cfg : Cfg) (text : List Sym) : (callContent cfg text).length ≤ text.length := by
  unfold callContent stripEnvelope
  split
  · rw [List.length_take, List.length_drop]
    omega
  · exact Nat.le_refl _

/-- A call fails with no bytes, or succeeds (R202, R220). -/
theorem decodeCall_failed_or_ok (cfg : Cfg) (text : List Sym) :
    (∃ e, decodeCall cfg text = errorRecord e) ∨ ∃ bytes, decodeCall cfg text = okRecord bytes := by
  rcases decodeCall_cases cfg text with ⟨-, h⟩ | ⟨content, h⟩
  · exact .inl ⟨_, h⟩
  · rcases decodeContent_cases cfg content 0#32 0 [] with ⟨e, -, hloop⟩ | ⟨bytes, hloop⟩
    · exact .inl ⟨e, h.trans hloop⟩
    · exact .inr ⟨_, h.trans hloop⟩

/-- A call gives at most four bytes for each symbol. -/
theorem decodeCall_payload_length_le (cfg : Cfg) (text : List Sym) : (decodeCall cfg text).payload.length ≤ 4 * text.length := by
  rcases decodeCall_failed_or_ok cfg text with ⟨e, h⟩ | ⟨bytes, h⟩ <;> rw [h]
  · exact Nat.zero_le _
  · obtain ⟨-, hlen, -⟩ := decodedLength_of_ok (content := callContent cfg text) (fun hw => by simp [callContent, hw])
      (fun hw => by simp [callContent, hw]) h
    have hcontent := shorthandCount_add_digitCount (callContent cfg text)
    have hle := callContent_length_le cfg text
    change bytes.length ≤ 4 * text.length
    split_ifs at hlen <;> omega

/-! ### What is refused -/

theorem roomFor_some_eq_false {old new : List (BitVec 8)} :
    roomFor (some cap) old new = false ↔ old.length < new.length ∧ cap < new.length := by
  simp [roomFor]

/-- A data command appends to its buffer and exceeds the capacity (R250). -/
def Exceeds (cap : Nat) (i : Instr) (s t : State) : Prop :=
  isData i = true ∧ (ownBuf i s).length < (ownBuf i t).length ∧ cap < (ownBuf i t).length

/-- A data command that exceeds the capacity is refused. -/
theorem exec_refused_of_exceeds (hcap : s.bufCap = some cap) (h : exec i { s with bufCap := none } = .next t)
    (hex : Exceeds cap i s t) : exec i s = .refused .bufferFull := by
  obtain ⟨hdata, hfull⟩ := hex
  cases i with
  | encByte b =>
    obtain ⟨hopen, -, rfl⟩ := execEncByte_eq_next.mp h
    exact execEncByte_eq_refused.mpr (.inr ⟨hopen, hcap ▸ roomFor_some_eq_false.mpr hfull, rfl⟩)
  | decSym c =>
    obtain ⟨hopen, -, rfl⟩ := execDecSym_eq_next.mp h
    exact execDecSym_eq_refused.mpr (.inr ⟨hopen, hcap ▸ roomFor_some_eq_false.mpr hfull, rfl⟩)
  | encBegin | encEnd | decBegin | decEnd => cases hdata

/-- Every other command does what it does with unbounded buffers. -/
theorem exec_next_of_not_exceeds (hcap : s.bufCap = some cap) (h : exec i { s with bufCap := none } = .next t)
    (hfits : ¬ Exceeds cap i s t) : exec i s = .next { t with bufCap := some cap } := by
  rw [← hcap]
  cases i with
  | encBegin =>
    obtain ⟨hidle, rfl⟩ := execEncBegin_eq_next.mp h
    exact execEncBegin_eq_next.mpr ⟨hidle, rfl⟩
  | encByte b =>
    obtain ⟨hopen, -, rfl⟩ := execEncByte_eq_next.mp h
    refine execEncByte_eq_next.mpr ⟨hopen, Bool.of_not_eq_false fun hfull => hfits ⟨rfl, ?_⟩, rfl⟩
    exact roomFor_some_eq_false.mp (hcap ▸ hfull)
  | encEnd =>
    obtain ⟨hopen, rfl⟩ := execEncEnd_eq_next.mp h
    exact execEncEnd_eq_next.mpr ⟨hopen, rfl⟩
  | decBegin =>
    obtain ⟨hidle, rfl⟩ := execDecBegin_eq_next.mp h
    exact execDecBegin_eq_next.mpr ⟨hidle, rfl⟩
  | decSym c =>
    obtain ⟨hopen, -, rfl⟩ := execDecSym_eq_next.mp h
    refine execDecSym_eq_next.mpr ⟨hopen, Bool.of_not_eq_false fun hfull => hfits ⟨rfl, ?_⟩, rfl⟩
    exact roomFor_some_eq_false.mp (hcap ▸ hfull)
  | decEnd =>
    obtain ⟨hopen, rfl⟩ := execDecEnd_eq_next.mp h
    refine execDecEnd_eq_next.mpr ⟨hopen, ?_⟩
    rw [decFinish_eq, decFinish_eq]
    rfl

end

/-- Settles O9: the refused and the accepted commands, then the two bounds from the lengths of R198 and R199. -/
theorem capacityRefusesTheExceedingDataCommand : Obligations.CapacityRefusesTheExceedingDataCommand :=
  ⟨fun _ _ _ _ hcap h => ⟨exec_refused_of_exceeds hcap h, exec_next_of_not_exceeds hcap h⟩, encodeCall_length_le,
    decodeCall_payload_length_le⟩

end Sys2Proof.Proofs

/-! PROOF. The tail of a partial group (42_decode.md R157): the bias brings back its bytes, and does not wrap. -/

namespace Sys2Proof.Proofs

open Sys2Proof.Machine

/-- The biased tuple of a partial group stays below the next value of the group's last byte, so below `2^32`. -/
theorem biased_tuple_lt {bs : List Byte} (h1 : 1 ≤ bs.length) (h3 : bs.length ≤ 3) :
    (accDigits ((digits85 (pack bs)).take (bs.length + 1)) 0 0#32).toNat + 85 ^ (4 - bs.length) < 2 ^ 32 := by
  obtain ⟨-, hhi⟩ := biased_tuple_bounds h1 h3
  exact hhi.trans_le (pack_add_le (by omega))

/-- Settles O31: the bounds of the biased tuple, and the discriminating text evaluated. -/
theorem tailOfAPartialGroupGivesItsBytes : Obligations.TailOfAPartialGroupGivesItsBytes :=
  ⟨fun _ h1 h3 _ hcount => ⟨biased_tuple_lt h1 h3, tailBytes_accDigits h1 h3 hcount⟩, by decide +kernel⟩

end Sys2Proof.Proofs

/-! PROOF. The beats of a channel determine its records (30_encoding.md R77, R78): a reader of beats that gives back the first record
and the beats after it. -/

namespace Sys2Proof.Proofs

open Sys2Proof.Machine

section

variable {r : Record} {rs : List Record}

@[simp] theorem extractLsb'_beat (k : BeatKind) (x : BitVec 8) : (beat k x).extractLsb' 0 8 = x := by
  rw [beat, BitVec.extractLsb'_append_eq_of_add_le (Nat.le_refl 8)]
  exact BitVec.extractLsb'_eq_self

/-- A beat's `kind` is read from its bits 9:8 (R78). -/
theorem kind_of_beat (k : BeatKind) (x : BitVec 8) : (beat k x).extractLsb' 8 2 = beatKindBits k := by
  rw [beat, BitVec.extractLsb'_append_eq_of_le (Nat.le_refl 8)]
  exact BitVec.extractLsb'_eq_self

theorem beat_ne_of_kind {k k' : BeatKind} (h : beatKindBits k ≠ beatKindBits k') (x y : BitVec 8) : beat k x ≠ beat k' y :=
  fun heq => h (by rw [← kind_of_beat k x, heq, kind_of_beat])

/-- The error whose code is in the data of an `END_ERR` beat (R78, R210). -/
def errorOfBeat (b : Beat) : Option Error :=
  [Error.invalidAlphabet, .malformedEnvelope, .invalidShorthandPlacement, .invalidSymbol, .truncatedBlock].find?
    fun e => beat .endErr ((errorCode e).setWidth 8) == b

theorem errorOfBeat_endErr (e : Error) : errorOfBeat (beat .endErr ((errorCode e).setWidth 8)) = some e := by
  cases e <;> decide

theorem errorOfBeat_data (x : BitVec 8) : errorOfBeat (beat .data x) = none := by
  have hne : ∀ e, beat .endErr ((errorCode e).setWidth 8) ≠ beat .data x := fun _ => beat_ne_of_kind (by decide) _ _
  simp [errorOfBeat, hne]

/-- The first record that a list of beats spells, and the beats after it. -/
def readRecord : List Beat → Option (Record × List Beat)
  | [] => none
  | b :: bs =>
    if b = beat .endOk 0#8 then some (okRecord [], bs)
    else
      match errorOfBeat b with
      | some e => some (errorRecord e, bs)
      | none => (readRecord bs).map fun (r, rest) => ({ r with payload := b.extractLsb' 0 8 :: r.payload }, rest)

theorem readRecord_okBeats (payload : List (BitVec 8)) (rest : List Beat) :
    readRecord (recordBeats (okRecord payload) ++ rest) = some (okRecord payload, rest) := by
  induction payload with
  | nil => rfl
  | cons x payload ih =>
    have hbeats : recordBeats (okRecord (x :: payload)) ++ rest = beat .data x :: (recordBeats (okRecord payload) ++ rest) := rfl
    rw [hbeats, readRecord, if_neg (beat_ne_of_kind (by decide) _ _), errorOfBeat_data, ih]
    simp [okRecord]

theorem readRecord_errorBeat (e : Error) (rest : List Beat) :
    readRecord (recordBeats (errorRecord e) ++ rest) = some (errorRecord e, rest) := by
  have hbeats : recordBeats (errorRecord e) ++ rest = beat .endErr ((errorCode e).setWidth 8) :: rest := rfl
  rw [hbeats, readRecord, if_neg (beat_ne_of_kind (by decide) _ _), errorOfBeat_endErr]

/-- A record without a payload when it failed is one of the two kinds that the machine publishes. -/
theorem record_cases (hr : r.status ≠ .ok → r.payload = []) : (∃ payload, r = okRecord payload) ∨ ∃ e, r = errorRecord e := by
  obtain ⟨status, payload⟩ := r
  cases status with
  | ok => exact .inl ⟨payload, rfl⟩
  | error e =>
    obtain rfl : payload = [] := hr Status.noConfusion
    exact .inr ⟨e, rfl⟩

/-- The reader gives back the record whose beats come first. -/
theorem readRecord_recordBeats (hr : r.status ≠ .ok → r.payload = []) (rest : List Beat) :
    readRecord (recordBeats r ++ rest) = some (r, rest) := by
  rcases record_cases hr with ⟨payload, rfl⟩ | ⟨e, rfl⟩
  · exact readRecord_okBeats payload rest
  · exact readRecord_errorBeat e rest

/-- The reader at the start of a channel. -/
theorem readRecord_channelBeats (hrs : ∀ r ∈ rs, r.status ≠ .ok → r.payload = []) :
    readRecord (channelBeats rs) = rs.head?.map fun r => (r, channelBeats rs.tail) := by
  cases rs with
  | nil => rfl
  | cons r rs => exact readRecord_recordBeats (hrs r List.mem_cons_self) (channelBeats rs)

/-- Channels with the same beats have the same first record, and the same beats after it. -/
theorem same_first_record {rs' : List Record} (hrs : ∀ r ∈ rs, r.status ≠ .ok → r.payload = [])
    (hrs' : ∀ r ∈ rs', r.status ≠ .ok → r.payload = []) (h : channelBeats rs = channelBeats rs') :
    rs.head?.map (fun r => (r, channelBeats rs.tail)) = rs'.head?.map fun r => (r, channelBeats rs'.tail) := by
  rw [← readRecord_channelBeats hrs, ← readRecord_channelBeats hrs', h]

end

/-- Settles O58: record by record, as the reader gives them back. -/
theorem beatsDetermineTheRecords : Obligations.BeatsDetermineTheRecords := by
  intro rs rs' hrs hrs' hbeats
  induction rs generalizing rs' with
  | nil =>
    have hfirst := same_first_record hrs hrs' hbeats
    cases rs' with
    | nil => rfl
    | cons r' rs' => cases hfirst
  | cons r rs ih =>
    have hfirst := same_first_record hrs hrs' hbeats
    cases rs' with
    | nil => cases hfirst
    | cons r' rs' =>
      obtain ⟨rfl, hrest⟩ := Prod.mk.inj (Option.some.inj hfirst)
      rw [ih rs' (List.forall_mem_cons.mp hrs).2 (List.forall_mem_cons.mp hrs').2 hrest]

end Sys2Proof.Proofs

/-! PROOF. Pseudo-instructions and the assembler text (30_encoding.md R79, R80). -/

namespace Sys2Proof.Proofs

open Sys2Proof.Machine

theorem expandPseudo_encode (bytes : List Byte) : expandPseudo (.encode bytes) = .encBegin :: (bytes.map .encByte ++ [.encEnd]) := rfl

theorem expandPseudo_decode (text : List Sym) : expandPseudo (.decode text) = .decBegin :: (text.map .decSym ++ [.decEnd]) := rfl

/-- Settles O59: the expansions for every list; the lines of text, each assembled. -/
theorem pseudoInstructionsAndAssemblerText : Obligations.PseudoInstructionsAndAssemblerText := by
  refine ⟨fun bytes => ⟨expandPseudo_encode bytes, by simp [expandPseudo_encode]⟩,
    fun text => ⟨expandPseudo_decode text, by simp [expandPseudo_decode]⟩, ?lines⟩
  case lines => decide

end Sys2Proof.Proofs
